-- ==== Sys2Proof/Word.lean ====
section
/-! DEFINITION. The widths of the machine (rules R6, R8, R9, R21): bytes, 16-bit words, 12-bit addresses,
register numbers. Every quantity is unsigned (R8). -/

namespace Sys2Proof

/-- An 8-bit value: one memory cell (R32), one general register (R21), one timer (R28, R29). -/
abbrev Byte := BitVec 8

/-- A 16-bit value: `pc` (R23), `I` (R26), a call-stack entry (R27), an instruction word (R90). -/
abbrev Word := BitVec 16

/-- The 12-bit address immediate `addr` of R91, R93. -/
abbrev Addr := BitVec 12

/-- A register number 0x0 to 0xF: the 4-bit field `x` or `y` (R21, R91). Every value names a register. -/
abbrev Reg := Fin 16

end Sys2Proof
end

