-- ==== Sys2Proof/Syntax.lean ====
section
/-! DEFINITION. The instructions: one constructor per row of spec/opcode_table.json, that is the 33 patterns of rule
R96 and the unrecognised word of R98 and R220. Operands are those of rule R11: `x`, `y` register numbers, `n`, `nn`,
`addr` immediates. -/

namespace Sys2Proof

inductive Instr where
  /-- `00E0` (R190) -/
  | cls
  /-- `00EE` (R141) -/
  | ret
  /-- `1NNN` (R142) -/
  | jp (addr : Addr)
  /-- `2NNN` (R143) -/
  | call (addr : Addr)
  /-- `3XNN` (R151) -/
  | seImm (x : Reg) (nn : Byte)
  /-- `4XNN` (R152) -/
  | sneImm (x : Reg) (nn : Byte)
  /-- `5XY0` (R153) -/
  | seReg (x y : Reg)
  /-- `6XNN` (R160) -/
  | ldImm (x : Reg) (nn : Byte)
  /-- `7XNN` (R161) -/
  | addImm (x : Reg) (nn : Byte)
  /-- `8XY0` (R170) -/
  | ldReg (x y : Reg)
  /-- `8XY1` (R171) -/
  | orReg (x y : Reg)
  /-- `8XY2` (R172) -/
  | andReg (x y : Reg)
  /-- `8XY3` (R173) -/
  | xorReg (x y : Reg)
  /-- `8XY4` (R174) -/
  | addReg (x y : Reg)
  /-- `8XY5` (R175) -/
  | subReg (x y : Reg)
  /-- `8XY6` (R176); `y` is encoded and ignored -/
  | shr (x y : Reg)
  /-- `8XY7` (R177) -/
  | subnReg (x y : Reg)
  /-- `8XYE` (R178); `y` is encoded and ignored -/
  | shl (x y : Reg)
  /-- `ANNN` (R162) -/
  | ldI (addr : Addr)
  /-- `BNNN` (R144) -/
  | jpV0 (addr : Addr)
  /-- `CXNN` (R163) -/
  | rnd (x : Reg) (nn : Byte)
  /-- `DXYN` (R191); `n` is the number of sprite rows, 0 to 15 -/
  | drw (x y : Reg) (n : Fin 16)
  /-- `EX9E` (R154) -/
  | skp (x : Reg)
  /-- `EXA1` (R155) -/
  | sknp (x : Reg)
  /-- `FX07` (R200) -/
  | getDT (x : Reg)
  /-- `FX0A` (R201) -/
  | waitKey (x : Reg)
  /-- `FX15` (R202) -/
  | setDT (x : Reg)
  /-- `FX18` (R203) -/
  | setST (x : Reg)
  /-- `FX1E` (R211) -/
  | addI (x : Reg)
  /-- `FX29` (R212) -/
  | ldFont (x : Reg)
  /-- `FX33` (R213) -/
  | ldBcd (x : Reg)
  /-- `FX55` (R214) -/
  | storeRegs (x : Reg)
  /-- `FX65` (R215) -/
  | loadRegs (x : Reg)
  /-- any word no other row matches (R98, R220); the whole word is kept -/
  | unrecognised (w : Word)
  deriving DecidableEq, Repr

end Sys2Proof
end

