-- ==== Sys2Proof/Decode.lean ====
section
/-! DEFINITION. Decoding (rules R90 to R100, R123) and encoding. `decodeWord` is the two-level dispatch of R94;
`opcodeMap` is the table of R96, kept beside it as data; `encode` is written from the formats of R92. -/

namespace Sys2Proof

/-! ## Fields of an instruction word (R91) -/

/-- `top`, bits [15:12]. -/
def opTop (op : Word) : BitVec 4 := op.extractLsb' 12 4

/-- `x`, bits [11:8]. -/
def opX (op : Word) : Reg := (op.extractLsb' 8 4).toFin

/-- `y`, bits [7:4]. -/
def opY (op : Word) : Reg := (op.extractLsb' 4 4).toFin

/-- `n`, bits [3:0]. -/
def opN (op : Word) : Fin 16 := (op.extractLsb' 0 4).toFin

/-- `nn`, bits [7:0]. -/
def opNN (op : Word) : Byte := op.extractLsb' 0 8

/-- `addr`, bits [11:0]. -/
def opAddr (op : Word) : Addr := op.extractLsb' 0 12

/-! ## Decoding -/

/-- Secondary dispatch for `top = 0`: the whole word is compared (R94, R95). -/
def decode0 (op : Word) : Instr :=
  if op = 0x00E0 then .cls else if op = 0x00EE then .ret else .unrecognised op

/-- Secondary dispatch on `n` for `top = 5` (R94, R95). -/
def decode5 (op : Word) : Instr :=
  match (opN op).val with
  | 0x0 => .seReg (opX op) (opY op)
  | _ => .unrecognised op

/-- Secondary dispatch on `n` for `top = 8` (R94, R96). -/
def decode8 (op : Word) : Instr :=
  match (opN op).val with
  | 0x0 => .ldReg (opX op) (opY op)
  | 0x1 => .orReg (opX op) (opY op)
  | 0x2 => .andReg (opX op) (opY op)
  | 0x3 => .xorReg (opX op) (opY op)
  | 0x4 => .addReg (opX op) (opY op)
  | 0x5 => .subReg (opX op) (opY op)
  | 0x6 => .shr (opX op) (opY op)
  | 0x7 => .subnReg (opX op) (opY op)
  | 0xE => .shl (opX op) (opY op)
  | _ => .unrecognised op

/-- Secondary dispatch on `nn` for `top = E` (R94, R96). -/
def decodeE (op : Word) : Instr :=
  if opNN op = 0x9E then .skp (opX op)
  else if opNN op = 0xA1 then .sknp (opX op)
  else .unrecognised op

/-- Secondary dispatch on `nn` for `top = F` (R94, R96). -/
def decodeF (op : Word) : Instr :=
  if opNN op = 0x07 then .getDT (opX op)
  else if opNN op = 0x0A then .waitKey (opX op)
  else if opNN op = 0x15 then .setDT (opX op)
  else if opNN op = 0x18 then .setST (opX op)
  else if opNN op = 0x1E then .addI (opX op)
  else if opNN op = 0x29 then .ldFont (opX op)
  else if opNN op = 0x33 then .ldBcd (opX op)
  else if opNN op = 0x55 then .storeRegs (opX op)
  else if opNN op = 0x65 then .loadRegs (opX op)
  else .unrecognised op

/-- Decoding of one word (R94, R123): it always succeeds, and a word no row matches decodes as unrecognised (R98).
`top = 9` has no instruction (R99). -/
def decodeWord (op : Word) : Instr :=
  match (opTop op).toNat with
  | 0x0 => decode0 op
  | 0x1 => .jp (opAddr op)
  | 0x2 => .call (opAddr op)
  | 0x3 => .seImm (opX op) (opNN op)
  | 0x4 => .sneImm (opX op) (opNN op)
  | 0x5 => decode5 op
  | 0x6 => .ldImm (opX op) (opNN op)
  | 0x7 => .addImm (opX op) (opNN op)
  | 0x8 => decode8 op
  | 0xA => .ldI (opAddr op)
  | 0xB => .jpV0 (opAddr op)
  | 0xC => .rnd (opX op) (opNN op)
  | 0xD => .drw (opX op) (opY op) (opN op)
  | 0xE => decodeE op
  | 0xF => decodeF op
  | _ => .unrecognised op

/-- Why a list of bytes gives no instruction. -/
inductive DecodeError where
  /-- fewer than the two bytes of R90 are there; `have_` says how many -/
  | truncated (have_ : Nat)
  deriving DecidableEq, Repr

/-- The word of two bytes in memory order, first byte more significant (R62, R90). -/
def wordOfBytes (first second : Byte) : Word := first ++ second

/-- Decoding of a byte string: the first instruction and the bytes after it. Total; a string too short for a word is
rejected by name (R90: every instruction is two bytes). -/
def decodeBytes : List Byte → Except DecodeError (Instr × List Byte)
  | first :: second :: rest => .ok (decodeWord (wordOfBytes first second), rest)
  | short => .error (.truncated short.length)

/-- The more significant byte of a word, which stands at the lower address (R62). -/
def hiByte (w : Word) : Byte := w.extractLsb' 8 8

/-- The less significant byte of a word. -/
def loByte (w : Word) : Byte := w.extractLsb' 0 8

/-- The instruction word whose bits the opcode table numbers as `w`, of which it gives `nbits`; the bits above are 0. -/
def tableWord (nbits w : Nat) : Word := BitVec.ofNat 16 (w % 2 ^ nbits)

/-- The instruction the decoder reads from the table's word, laid out as memory holds it (R62). -/
def decodeTableWord (nbits w : Nat) : Option Instr :=
  match decodeBytes [hiByte (tableWord nbits w), loByte (tableWord nbits w)] with
  | .ok (i, _) => some i
  | .error _ => none

/-! ## The opcode map (R96) -/

/-- A row of the opcode map: a word is the row's instruction when `op & mask = pat`. -/
structure OpcodeRow where
  mnemonic : String
  mask : Word
  pat : Word
  deriving DecidableEq, Repr

/-- Does the word match the row? -/
def OpcodeRow.hits (r : OpcodeRow) (op : Word) : Bool := op &&& r.mask == r.pat

/-- The rows with a whole-word or one-digit literal (formats FIXED, ADDR, X_NN, X_Y_N of R92). -/
def opcodeMapWide : List OpcodeRow :=
  [⟨"CLS", 0xFFFF, 0x00E0⟩, ⟨"RET", 0xFFFF, 0x00EE⟩, ⟨"JP_addr", 0xF000, 0x1000⟩,
   ⟨"CALL_addr", 0xF000, 0x2000⟩, ⟨"SE_Vx__nn", 0xF000, 0x3000⟩, ⟨"SNE_Vx__nn", 0xF000, 0x4000⟩,
   ⟨"LD_Vx__nn", 0xF000, 0x6000⟩, ⟨"ADD_Vx__nn", 0xF000, 0x7000⟩, ⟨"LD_I__addr", 0xF000, 0xA000⟩,
   ⟨"JP_V0__addr", 0xF000, 0xB000⟩, ⟨"RND_Vx__nn", 0xF000, 0xC000⟩, ⟨"DRW_Vx__Vy__n", 0xF000, 0xD000⟩]

/-- The rows of format X_Y_F (R92). -/
def opcodeMapXYF : List OpcodeRow :=
  [⟨"SE_Vx__Vy", 0xF00F, 0x5000⟩, ⟨"LD_Vx__Vy", 0xF00F, 0x8000⟩, ⟨"OR_Vx__Vy", 0xF00F, 0x8001⟩,
   ⟨"AND_Vx__Vy", 0xF00F, 0x8002⟩, ⟨"XOR_Vx__Vy", 0xF00F, 0x8003⟩, ⟨"ADD_Vx__Vy", 0xF00F, 0x8004⟩,
   ⟨"SUB_Vx__Vy", 0xF00F, 0x8005⟩, ⟨"SHR_Vx", 0xF00F, 0x8006⟩, ⟨"SUBN_Vx__Vy", 0xF00F, 0x8007⟩,
   ⟨"SHL_Vx", 0xF00F, 0x800E⟩]

/-- The rows of format X_FF (R92). -/
def opcodeMapXFF : List OpcodeRow :=
  [⟨"SKP_Vx", 0xF0FF, 0xE09E⟩, ⟨"SKNP_Vx", 0xF0FF, 0xE0A1⟩, ⟨"LD_Vx__DT", 0xF0FF, 0xF007⟩,
   ⟨"LD_Vx__K", 0xF0FF, 0xF00A⟩, ⟨"LD_DT__Vx", 0xF0FF, 0xF015⟩, ⟨"LD_ST__Vx", 0xF0FF, 0xF018⟩,
   ⟨"ADD_I__Vx", 0xF0FF, 0xF01E⟩, ⟨"LD_F__Vx", 0xF0FF, 0xF029⟩, ⟨"LD_B__Vx", 0xF0FF, 0xF033⟩,
   ⟨"LD__I___Vx", 0xF0FF, 0xF055⟩, ⟨"LD_Vx___I", 0xF0FF, 0xF065⟩]

/-- The 33 rows of R96, under the mnemonics of spec/opcode_table.json. -/
def opcodeMap : List OpcodeRow := opcodeMapWide ++ opcodeMapXYF ++ opcodeMapXFF

/-- Is the word one of the 43,698 that R96 recognises? -/
def recognised (op : Word) : Bool := opcodeMap.any (fun r => r.hits op)

/-- The mnemonic of an instruction, as spec/opcode_table.json spells it. -/
def Instr.mnemonic : Instr → String
  | .cls => "CLS"
  | .ret => "RET"
  | .jp _ => "JP_addr"
  | .call _ => "CALL_addr"
  | .seImm _ _ => "SE_Vx__nn"
  | .sneImm _ _ => "SNE_Vx__nn"
  | .seReg _ _ => "SE_Vx__Vy"
  | .ldImm _ _ => "LD_Vx__nn"
  | .addImm _ _ => "ADD_Vx__nn"
  | .ldReg _ _ => "LD_Vx__Vy"
  | .orReg _ _ => "OR_Vx__Vy"
  | .andReg _ _ => "AND_Vx__Vy"
  | .xorReg _ _ => "XOR_Vx__Vy"
  | .addReg _ _ => "ADD_Vx__Vy"
  | .subReg _ _ => "SUB_Vx__Vy"
  | .shr _ _ => "SHR_Vx"
  | .subnReg _ _ => "SUBN_Vx__Vy"
  | .shl _ _ => "SHL_Vx"
  | .ldI _ => "LD_I__addr"
  | .jpV0 _ => "JP_V0__addr"
  | .rnd _ _ => "RND_Vx__nn"
  | .drw _ _ _ => "DRW_Vx__Vy__n"
  | .skp _ => "SKP_Vx"
  | .sknp _ => "SKNP_Vx"
  | .getDT _ => "LD_Vx__DT"
  | .waitKey _ => "LD_Vx__K"
  | .setDT _ => "LD_DT__Vx"
  | .setST _ => "LD_ST__Vx"
  | .addI _ => "ADD_I__Vx"
  | .ldFont _ => "LD_F__Vx"
  | .ldBcd _ => "LD_B__Vx"
  | .storeRegs _ => "LD__I___Vx"
  | .loadRegs _ => "LD_Vx___I"
  | .unrecognised _ => "unrecognised_word"

/-! ## Encoding, from the formats of R92 -/

/-- Format ADDR: literal `top`, then `addr`. -/
def encAddr (top : BitVec 4) (addr : Addr) : Word := top ++ addr

/-- Formats X_NN and X_FF: literal `top`, `x`, then the byte `nn` or the literal function. -/
def encXNN (top : BitVec 4) (x : Reg) (nn : Byte) : Word := top ++ (BitVec.ofFin (w := 4) x ++ nn)

/-- Formats X_Y_F and X_Y_N: literal `top`, `x`, `y`, then the literal function or `n`. -/
def encXYN (top : BitVec 4) (x y : Reg) (n : Fin 16) : Word :=
  encXNN top x (BitVec.ofFin (w := 4) y ++ BitVec.ofFin (w := 4) n)

/-- The word of an instruction. For `unrecognised w` it is `w`. -/
def encode : Instr → Word
  | .cls => 0x00E0
  | .ret => 0x00EE
  | .jp addr => encAddr 0x1 addr
  | .call addr => encAddr 0x2 addr
  | .seImm x nn => encXNN 0x3 x nn
  | .sneImm x nn => encXNN 0x4 x nn
  | .seReg x y => encXYN 0x5 x y 0x0
  | .ldImm x nn => encXNN 0x6 x nn
  | .addImm x nn => encXNN 0x7 x nn
  | .ldReg x y => encXYN 0x8 x y 0x0
  | .orReg x y => encXYN 0x8 x y 0x1
  | .andReg x y => encXYN 0x8 x y 0x2
  | .xorReg x y => encXYN 0x8 x y 0x3
  | .addReg x y => encXYN 0x8 x y 0x4
  | .subReg x y => encXYN 0x8 x y 0x5
  | .shr x y => encXYN 0x8 x y 0x6
  | .subnReg x y => encXYN 0x8 x y 0x7
  | .shl x y => encXYN 0x8 x y 0xE
  | .ldI addr => encAddr 0xA addr
  | .jpV0 addr => encAddr 0xB addr
  | .rnd x nn => encXNN 0xC x nn
  | .drw x y n => encXYN 0xD x y n
  | .skp x => encXNN 0xE x 0x9E
  | .sknp x => encXNN 0xE x 0xA1
  | .getDT x => encXNN 0xF x 0x07
  | .waitKey x => encXNN 0xF x 0x0A
  | .setDT x => encXNN 0xF x 0x15
  | .setST x => encXNN 0xF x 0x18
  | .addI x => encXNN 0xF x 0x1E
  | .ldFont x => encXNN 0xF x 0x29
  | .ldBcd x => encXNN 0xF x 0x33
  | .storeRegs x => encXNN 0xF x 0x55
  | .loadRegs x => encXNN 0xF x 0x65
  | .unrecognised w => w

/-- The two bytes of an instruction in memory order (R62). -/
def encodeBytes (i : Instr) : List Byte := [hiByte (encode i), loByte (encode i)]

end Sys2Proof
end

