-- ==== Sys2Proof/Config.lean ====
section
/-! DEFINITION. What is fixed for one machine: the sizes of rule R6 that the definitions name, and the three open
parameters of rule R7 that come from outside the core (`IPS`, `RandomByte`, `KeyIn`). The open ones are constants
with no body, so nothing can be proved from a value of theirs. `FONT` stands in Sys2Proof/Machine/Memory.lean,
`ROM` is the argument of `Sys2Proof.Machine.boot`, and `ADDR_POLICY` is `mask` (R61). -/

namespace Sys2Proof.Config

/-- `MEM_SIZE` of R6: 4096 byte cells. -/
abbrev memSize : Nat := 4096

/-- `PROG_BASE` of R6: load address of the program and reset value of `pc`. -/
abbrev progBase : Nat := 0x200

/-- `ROM_MAX` of R6: largest program image. -/
abbrev romMax : Nat := 3584

/-- `FONT_BASE` of R6: address of glyph 0. -/
abbrev fontBase : Nat := 0x50

/-- `GLYPH_BYTES` of R6: bytes per glyph. -/
abbrev glyphBytes : Nat := 5

/-- `FRAME_HZ` of R6: frames per second, the divisor of R128. -/
abbrev frameHz : Nat := 60

/-- FREE VALUE (R7: `IPS` is a natural number, at least 60; R128, decision D5). How far `IPS` lies above 60:
any natural number. Log entry 3. -/
opaque ipsAboveMin : Nat

/-- `IPS` of R7: instructions per second, at least 60. -/
def ips : Nat := frameHz + ipsAboveMin

/-- `IPF` of R7 and R128: instruction steps per frame, `floor(IPS / 60)`, hence at least 1. -/
def ipf : Nat := ips / frameHz

/-- FREE VALUE (R163, R255, decision D13): the byte port `rnd_in` supplies for draw number `k`. Log entry 4. -/
opaque randomByte : Nat → Byte

/-- FREE VALUE (R252): `KeyIn(f)`, the 16-bit keypad snapshot port `key_in` shows at the end of frame `f`;
bit `k` set while key `k` is held. Log entry 5. -/
opaque keyIn : Nat → BitVec 16

end Sys2Proof.Config
end

