-- ==== Sys2Proof/Machine/State.lean ====
section
/-! DEFINITION. The state of the machine (rule R20), the reasons a step can stop, and the state after reset (R45). -/

namespace Sys2Proof.Machine

/-- The two fatal conditions of R230. As a value of the latch `FAULT` (R35) it is set by `00EE` and `2NNN`
(`Sys2Proof.Machine.raise`); as the outcome of `step` it is raised only by `step` itself, on a machine whose latch is
set, because a halted machine takes no instruction step (R130, R234). Safe: the machine really takes no step there. -/
inductive Fault where
  /-- `2NNN` with 16 entries on the call stack (R143). Raised as an outcome by `step` on the halted machine. Safe. -/
  | stackOverflow
  /-- `00EE` with an empty call stack (R141). Raised as an outcome by `step` on the halted machine. Safe. -/
  | stackUnderflow
  deriving DecidableEq, Repr

/-- Why the model gives no next state although no fault is latched. -/
inductive Refusal where
  /-- an instruction with no meaning yet; raised by an arm of `exec`. No arm raises it. Safe. -/
  | notModelled (mnemonic : String)
  /-- the host has ended the run at a frame boundary (R131), so no instruction step is enabled (R120); raised by
  `step`, by no instruction. Safe. -/
  | runEnded
  deriving DecidableEq, Repr

/-- Main memory, `MEM` of R32: the cells that differ from what `Memory.unlisted` gives, addresses strictly rising. -/
abbrev Memory := List Host.Cell

/-- The framebuffer, `FB` of R30: 32 rows (top first) of 64 pixels (left first), `true` = lit. -/
abbrev FrameBuffer := Vector (Vector Bool 64) 32

/-- The machine's state: the twelve rows of R20 under their own names, then four fields of the model's own (log
entries 4, 5 and 6) that place the core among its inputs. -/
structure State where
  /-- `V[0x0]` to `V[0xF]` (R21); `V[0xF]` is the flag register (R22) -/
  v : Vector Byte 16
  /-- `pc` (R23) -/
  pc : Word
  /-- `I`, the index register (R26) -/
  ireg : Word
  /-- `SP`, the number of entries on the call stack, 0 to 16 (R27) -/
  sp : Fin 17
  /-- `STACK[0]` to `STACK[15]` (R27); entry 0 is the oldest -/
  stack : Vector Word 16
  /-- `DT`, the delay timer (R28) -/
  dt : Byte
  /-- `ST`, the sound timer (R29) -/
  st : Byte
  /-- `FB` (R30) -/
  fb : FrameBuffer
  /-- `KEY`, the keypad latch (R31); bit `k` = key `k` held -/
  key : BitVec 16
  /-- `MEM` (R32) -/
  mem : Memory
  /-- `FAULT` (R35); `none` is the spec's `None` -/
  fault : Option Fault
  /-- `FCNT`, the instruction steps completed in the current frame (R36) -/
  fcnt : Nat
  /-- MODEL'S OWN: how many bytes `CXNN` has drawn; indexes `Config.randomByte` (R163) -/
  draws : Nat
  /-- MODEL'S OWN: how many ticks have happened, which is the number `f` of the current frame (R127); indexes
  `Config.keyIn`, and its increments are the pulses of port `frame_done` (R50) -/
  frames : Nat
  /-- MODEL'S OWN: the level on the host's input port `stop` (R50) -/
  stopIn : Bool
  /-- MODEL'S OWN: the host has ended the run (R131) -/
  stopped : Bool
  deriving DecidableEq, Repr

/-- The machine right after reset with no program image (R45, R270; an empty image is legal, R273). Memory lists
nothing: the font and the zeros of R45 are what unlisted addresses read as. -/
def State.reset : State where
  v := Vector.replicate 16 0
  pc := 0x0200
  ireg := 0
  sp := 0
  stack := Vector.replicate 16 0
  dt := 0
  st := 0
  fb := Vector.replicate 32 (Vector.replicate 64 false)
  key := 0
  mem := []
  fault := none
  fcnt := 0
  draws := 0
  frames := 0
  stopIn := false
  stopped := false

/-- What a meaning answers. -/
abbrev Result := Host.Outcome State Fault Refusal

end Sys2Proof.Machine
end

