-- ==== Sys2Proof/Machine/Flags.lean ====
section
/-! DEFINITION. The values written to the flag register `V[0xF]` (rules R22, R174 to R178, R191). There is no status
register and no other flag. -/

namespace Sys2Proof.Machine

/-- The flag register's number (R22). -/
def flagReg : Reg := 0xF

/-- A flag as the 8-bit value 0x01 or 0x00. -/
def flagByte (b : Bool) : Byte := if b then 1 else 0

/-- Carry of `8XY4`: 1 if the exact sum exceeds 255 (R174). -/
def carryFlag (a b : Byte) : Byte := flagByte (decide (255 < a.toNat + b.toNat))

/-- No-borrow flag of `8XY5` and `8XY7` for `a - b`: 0 if `a < b`, else 1 (R175, R177). -/
def noBorrowFlag (a b : Byte) : Byte := flagByte (!decide (a.toNat < b.toNat))

/-- The bit a right shift pushes out: bit 0 (R176). -/
def lowBitFlag (a : Byte) : Byte := flagByte (a.getLsbD 0)

/-- The bit a left shift pushes out: bit 7 (R178). -/
def highBitFlag (a : Byte) : Byte := flagByte (a.getLsbD 7)

/-- Collision flag of `DXYN`: 1 if a lit pixel was cleared (R191). -/
def collisionFlag (hit : Bool) : Byte := flagByte hit

end Sys2Proof.Machine
end

