-- ==== Sys2Proof/Machine/Memory.lean ====
section
/-! DEFINITION. Main memory (rules R32 to R34, R60 to R71): what an unlisted address reads as, the canonical form, and
the read and the write of one byte. Every cell is plain readable and writable storage (R68, R71). -/

namespace Sys2Proof.Machine

/-- `FONT`, the 80 bytes of R34 (its default value; decision D4, log entry 8): five bytes a glyph, digits 0 to F. -/
def font : List Byte :=
  [0xF0, 0x90, 0x90, 0x90, 0xF0,  0x20, 0x60, 0x20, 0x20, 0x70,
   0xF0, 0x10, 0xF0, 0x80, 0xF0,  0xF0, 0x10, 0xF0, 0x10, 0xF0] ++
  [0x90, 0x90, 0xF0, 0x10, 0x10,  0xF0, 0x80, 0xF0, 0x10, 0xF0,
   0xF0, 0x80, 0xF0, 0x90, 0xF0,  0xF0, 0x10, 0x20, 0x40, 0x40] ++
  [0xF0, 0x90, 0xF0, 0x90, 0xF0,  0xF0, 0x90, 0xF0, 0x10, 0xF0,
   0xF0, 0x90, 0xF0, 0x90, 0x90,  0xE0, 0x90, 0xE0, 0x90, 0xE0] ++
  [0xF0, 0x80, 0x80, 0x80, 0xF0,  0xE0, 0x90, 0x90, 0x90, 0xE0,
   0xF0, 0x80, 0xF0, 0x80, 0xF0,  0xF0, 0x80, 0xF0, 0x80, 0x80]

/-- What an address the list does not name reads as: the reset contents of R45 and R70, that is the font from 0x050
to 0x09F and zero elsewhere (zero by decision D3, log entry 7). -/
def Memory.unlisted (a : Nat) : Byte :=
  if Config.fontBase ≤ a ∧ a < Config.fontBase + 80 then font.getD (a - Config.fontBase) 0 else 0

/-- The cell an address names: every address is reduced modulo 4096 (R61, decision D1, log entry 1). -/
def Memory.cellOf (a : Nat) : Nat := a % Config.memSize

/-- The listed byte of a cell, if it is listed. -/
def Memory.lookup : Memory → Nat → Option Byte
  | [], _ => none
  | (b, w) :: m, a => if b = a then some w else Memory.lookup m a

/-- `MemRead(a, 1)` of R10 and R61. -/
def Memory.read (m : Memory) (a : Nat) : Byte :=
  (m.lookup (Memory.cellOf a)).getD (Memory.unlisted (Memory.cellOf a))

/-- The list without the cell `a`. -/
def Memory.erase : Memory → Nat → Memory
  | [], _ => []
  | (b, w) :: m, a => if b = a then Memory.erase m a else (b, w) :: Memory.erase m a

/-- The list with `(a, w)` put before the first cell of a higher address. -/
def Memory.insert : Memory → Nat → Byte → Memory
  | [], a, w => [(a, w)]
  | (b, u) :: m, a, w => if a < b then (a, w) :: (b, u) :: m else (b, u) :: Memory.insert m a w

/-- `MemWrite(a, 1, w)` of R10 and R61, in canonical form: a cell written with what it reads as unlisted leaves the
list. -/
def Memory.write (m : Memory) (a : Nat) (w : Byte) : Memory :=
  if w = Memory.unlisted (Memory.cellOf a) then m.erase (Memory.cellOf a)
  else (m.erase (Memory.cellOf a)).insert (Memory.cellOf a) w

/-- Every listed cell has an address of R32 not below `lo`, strictly above the cell before it, and a byte other than
the unlisted one. -/
def Memory.wfFrom : Nat → Memory → Bool
  | _, [] => true
  | lo, (a, w) :: m =>
    decide (lo ≤ a) && decide (a < Config.memSize) && (w != Memory.unlisted a) && Memory.wfFrom (a + 1) m

/-- The canonical form of memory. -/
def Memory.wf (m : Memory) : Bool := Memory.wfFrom 0 m

end Sys2Proof.Machine
end

