-- ==== Sys2Proof/Machine/Operands.lean ====
section
/-! DEFINITION. The operand forms (rules R11, R93, R210): what an instruction computes from a register's value or an
immediate before it acts. -/

namespace Sys2Proof.Machine

/-- `zext_16(addr)` (R10, R93): where `1NNN`, `2NNN` jump to and what `ANNN` loads. -/
def addrWord (addr : Addr) : Word := addr.setWidth 16

/-- `zext_16(b)` (R10): a byte where it meets a 16-bit register (`BNNN`, `FX1E`). -/
def byteWord (b : Byte) : Word := b.setWidth 16

/-- The low four bits of a register: key number (R154, R155) or digit (R212). -/
def lowDigit (b : Byte) : Fin 16 := (b.extractLsb' 0 4).toFin

/-- Start column of a sprite, `V[x] mod 64` (R191). -/
def startColumn (b : Byte) : Nat := b.toNat % 64

/-- Start row of a sprite, `V[y] mod 32` (R191). -/
def startRow (b : Byte) : Nat := b.toNat % 32

/-- Address of the glyph of digit `d`: `0x050 + 5 * d` (R33, R212). -/
def glyphAddress (d : Fin 16) : Word := BitVec.ofNat 16 (Config.fontBase + Config.glyphBytes * d.val)

/-- The three decimal digits of `FX33`: hundreds, tens, ones, each a whole byte (R213). -/
def decimalDigits (b : Byte) : List Byte :=
  [BitVec.ofNat 8 (b.toNat / 100), BitVec.ofNat 8 (b.toNat / 10 % 10), BitVec.ofNat 8 (b.toNat % 10)]

/-- The first held key, scanning 0x0 to 0xF upward (R201). -/
def firstHeldKey (key : BitVec 16) : Option Nat := (List.range 16).find? (fun k => key.getLsbD k)

end Sys2Proof.Machine
end

