-- ==== Sys2Proof/Machine/Ops.lean ====
section
/-! DEFINITION. The named operations over the state that the meanings and the step share: registers, memory, the call
stack, entering a fault, fetch and advance, the tick and the frame, loading a program, the host's actions, the output
ports. -/

namespace Sys2Proof.Machine

/-! ## Registers (R21, R26, R28, R29) -/

/-- Read of `V[x]`. -/
def State.getV (s : State) (x : Reg) : Byte := s.v[x.val]

/-- Write of `V[x]`: all sixteen are plain registers, none hard-wired (R21). -/
def State.setV (s : State) (x : Reg) (b : Byte) : State := { s with v := s.v.set x.val b }

/-- Write of `pc`. -/
def State.setPc (s : State) (t : Word) : State := { s with pc := t }

/-- Write of `I`. -/
def State.setI (s : State) (t : Word) : State := { s with ireg := t }

/-- Write of `DT`. -/
def State.setDT (s : State) (b : Byte) : State := { s with dt := b }

/-- Write of `ST`. -/
def State.setST (s : State) (b : Byte) : State := { s with st := b }

/-- Write of the whole framebuffer. -/
def State.setFb (s : State) (f : FrameBuffer) : State := { s with fb := f }

/-- The pixel at column `cx` and row `cy`; positions outside the grid hold no pixel (R30). -/
def fbPixel (f : FrameBuffer) (cx cy : Nat) : Bool :=
  if h : cy < 32 then if g : cx < 64 then f[cy][cx] else false else false

/-- The framebuffer with the pixel at column `cx` and row `cy` set to `b`; no write lands outside the grid (R192). -/
def fbSet (f : FrameBuffer) (cx cy : Nat) (b : Bool) : FrameBuffer :=
  if h : cy < 32 then if g : cx < 64 then f.set cy (f[cy].set cx b) else f else f

/-- `FB[y][x]` of the state. -/
def State.pixel (s : State) (cx cy : Nat) : Bool := fbPixel s.fb cx cy

/-- `KEY[k]`: is key `k` held in the latch (R31)? -/
def State.keyHeld (s : State) (k : Nat) : Bool := s.key.getLsbD k

/-! ## Memory (R61) -/

/-- `MemRead(a, 1)`. -/
def State.readMem (s : State) (a : Nat) : Byte := s.mem.read a

/-- `MemWrite(a, 1, b)`. -/
def State.writeMem (s : State) (a : Nat) (b : Byte) : State := { s with mem := s.mem.write a b }

/-- Effective address of byte `k` of an access through `I` (R210); the reduction modulo 4096 is in the access (R61). -/
def State.effAddr (s : State) (k : Nat) : Nat := s.ireg.toNat + k

/-- The bytes stored one after another from address `base` upward, lowest address first (R63). -/
def State.storeBytes (base : Nat) : List Byte → State → State
  | [], s => s
  | b :: bs, s => State.storeBytes (base + 1) bs (s.writeMem base b)

/-- Registers `V[0]` to `V[k - 1]` loaded from address `base` upward, lowest first (R215). -/
def State.loadBytes (base : Nat) : Nat → State → State
  | 0, s => s
  | k + 1, s =>
    let t := State.loadBytes base k s
    t.setV (Fin.ofNat 16 k) (t.readMem (base + k))

/-! ## Faults (R230 to R235) -/

/-- ENTERING A FAULT, `raise F` of R10 and R233: the latch is set and the instruction ends with nothing else written.
`pc` already holds the advanced value (R232). There is no saved register, no vector and no mode (R232), and no
instruction returns from a fault (R235), so there is no return operation. -/
def raise (f : Fault) (s : State) : Result := .next { s with fault := some f }

/-! ## Call stack (R27) -/

/-- Push: nothing is pushed when 16 entries are there. -/
def State.push (s : State) (w : Word) : Option State :=
  if h : s.sp.val < 16 then some { s with stack := s.stack.set s.sp.val w, sp := ⟨s.sp.val + 1, by omega⟩ } else none

/-- Pop: the newest entry and the state without it; nothing when the stack is empty. -/
def State.pop (s : State) : Option (Word × State) :=
  if h : 0 < s.sp.val then
    some (s.stack[s.sp.val - 1]'(by omega), { s with sp := ⟨s.sp.val - 1, by omega⟩ })
  else none

/-! ## Fetch, advance, skip (R121, R122, R150) -/

/-- Fetch: two byte reads, big-endian, whatever the value or parity of `pc` (R62, R64, R121). -/
def State.fetchWord (s : State) : Word := wordOfBytes (s.readMem s.pc.toNat) (s.readMem (s.pc.toNat + 1))

/-- Advance: `pc <- trunc_16(pc + 2)` (R122; the wrap is decision D2, log entry 2). -/
def State.advance (s : State) : State := s.setPc (s.pc + 2)

/-- A skip adds 2 more when its condition holds (R150). -/
def State.skipIf (s : State) (c : Bool) : State := if c then s.setPc (s.pc + 2) else s

/-! ## Random draw (R163) -/

/-- `RandomByte()`: one fresh byte from port `rnd_in`, and the state after the draw. -/
def State.drawRandom (s : State) : Byte × State := (Config.randomByte s.draws, { s with draws := s.draws + 1 })

/-! ## The tick and the frame (R127 to R131) -/

/-- A timer at a tick: down by one, never below zero (R28, R29). -/
def timerTick (t : Byte) : Byte := if t = 0 then 0 else t - 1

/-- The tick of R129 with the keypad snapshot `keys`: the latch is replaced, both timers count down, `frame_done`
pulses (`frames` moves on). -/
def tick (keys : BitVec 16) (s : State) : State :=
  { s with key := keys, dt := timerTick s.dt, st := timerTick s.st, frames := s.frames + 1 }

/-- Does the step that is ending complete its frame (R128)? -/
def State.frameEnds (s : State) : Bool := s.fcnt + 1 == Config.ipf

/-- The end of a completed step (R125, R128, R131): the frame counter moves on, and the step that brings it to `IPF`
is followed at once by the tick and by the look at port `stop`. Written field by field, so that `pc`, the registers
and memory compute without the value of `IPF`; `Sys2Proof.Laws.finishStep_eq` says that this is R125's form. -/
def State.finishStep (s : State) : State :=
  { s with
    fcnt := if s.frameEnds then 0 else s.fcnt + 1
    key := if s.frameEnds then Config.keyIn s.frames else s.key
    dt := if s.frameEnds then timerTick s.dt else s.dt
    st := if s.frameEnds then timerTick s.st else s.st
    frames := if s.frameEnds then s.frames + 1 else s.frames
    stopped := s.stopped || (s.stopIn && s.frameEnds) }

/-- What follows execute (R124, R125, R233): nothing after a fault, the end of the step otherwise. -/
def State.completeStep (s : State) : State :=
  match s.fault with
  | some _ => s
  | none => s.finishStep

/-- What becomes of the outcome of execute (R124, R125). -/
def afterExec : Result → Result
  | .next t => .next t.completeStep
  | .fault f => .fault f
  | .refused r => .refused r

/-- Why no step is enabled, if none is (R120): a halted machine answers with its fault (R130, R234), a run the host
has ended is refused (R131). -/
def State.barred (s : State) : Option Result :=
  match s.fault with
  | some f => some (.fault f)
  | none => if s.stopped then some (.refused .runEnded) else none

/-! ## The host (R273, R276) -/

/-- The state with a word stored at `pc`, as memory holds it (R62), and a step enabled (R120). It stands for loading
a one-instruction program from outside (log entry 10). -/
def State.enabledWith (s : State) (w : Word) : State :=
  State.storeBytes s.pc.toNat [hiByte w, loByte w] { s with fault := none, stopped := false }

/-- The ROM loader, which acts only in reset: the first 3584 bytes of the image from 0x200 upward (R273). -/
def State.loadRom (rom : List Byte) (s : State) : State :=
  State.storeBytes Config.progBase (rom.take Config.romMax) s

/-- Reset and load: the state in which a run with the image `rom` starts (R270, R272). It is also what a reset of any
state gives, the halted one included (R234), since nothing survives. -/
def boot (rom : List Byte) : State := State.reset.loadRom rom

/-- The host drives port `stop` (R50); the core looks at it only at a frame boundary (R131). -/
def State.driveStop (s : State) (level : Bool) : State := { s with stopIn := level }

/-! ## Output ports (R50) -/

/-- The codes of R231. -/
def faultCode : Option Fault → BitVec 2
  | none => 0
  | some .stackOverflow => 1
  | some .stackUnderflow => 2

/-- Port `fault_out`. -/
def State.faultOut (s : State) : BitVec 2 := faultCode s.fault

/-- Port `fb_out`, which the renderer reads after a tick (R253). -/
def State.fbOut (s : State) : FrameBuffer := s.fb

/-- Port `st_out` (R254). -/
def State.stOut (s : State) : Byte := s.st

/-- The audio device's view of `st_out`: a tone while it is nonzero (R254). -/
def State.toneOn (s : State) : Bool := s.st != 0

/-- Port `frame_done` over one step from `s` to `t`: it pulses when the step was followed by a tick (R129). -/
def frameDone (s t : State) : Bool := t.frames == s.frames + 1

end Sys2Proof.Machine
end

