-- ==== Sys2Proof/Machine/Alu.lean ====
section
/-! DEFINITION. Register-to-register operations (rules R169 to R178, R180). Register writes take effect in the order
the rule lists them, each reading the registers as the one before left them (R169, decision D6, log entry 9). -/

namespace Sys2Proof.Machine

/-- `8XY0` (R170). -/
def execLdReg (x y : Reg) (s : State) : Result := .next (s.setV x (s.getV y))

/-- `8XY1` (R171): no flag. -/
def execOrReg (x y : Reg) (s : State) : Result := .next (s.setV x (s.getV x ||| s.getV y))

/-- `8XY2` (R172): no flag. -/
def execAndReg (x y : Reg) (s : State) : Result := .next (s.setV x (s.getV x &&& s.getV y))

/-- `8XY3` (R173): no flag. -/
def execXorReg (x y : Reg) (s : State) : Result := .next (s.setV x (s.getV x ^^^ s.getV y))

/-- `8XY4` (R174): the sum is taken first, then the flag is written, then the low byte. -/
def execAddReg (x y : Reg) (s : State) : Result :=
  let sum := s.getV x + s.getV y
  let s1 := s.setV flagReg (carryFlag (s.getV x) (s.getV y))
  .next (s1.setV x sum)

/-- `8XY5` (R175): the flag is written first, and the subtraction reads the registers after it. -/
def execSubReg (x y : Reg) (s : State) : Result :=
  let s1 := s.setV flagReg (noBorrowFlag (s.getV x) (s.getV y))
  .next (s1.setV x (s1.getV x - s1.getV y))

/-- `8XY6` (R176): `V[y]` plays no part; the flag is written last. -/
def execShr (x _y : Reg) (s : State) : Result :=
  let s1 := s.setV x (s.getV x >>> 1)
  .next (s1.setV flagReg (lowBitFlag (s.getV x)))

/-- `8XY7` (R177): the flag is written first, and the subtraction reads the registers after it. -/
def execSubnReg (x y : Reg) (s : State) : Result :=
  let s1 := s.setV flagReg (noBorrowFlag (s.getV y) (s.getV x))
  .next (s1.setV x (s1.getV y - s1.getV x))

/-- `8XYE` (R178): `V[y]` plays no part; the flag is written last. -/
def execShl (x _y : Reg) (s : State) : Result :=
  let s1 := s.setV x (s.getV x <<< 1)
  .next (s1.setV flagReg (highBitFlag (s.getV x)))

end Sys2Proof.Machine
end

