-- ==== Sys2Proof/Machine/Const.lean ====
section
/-! DEFINITION. Immediates and random (rules R160 to R163). -/

namespace Sys2Proof.Machine

/-- `6XNN` (R160). -/
def execLdImm (x : Reg) (nn : Byte) (s : State) : Result := .next (s.setV x nn)

/-- `7XNN` (R161): wraps, no flag. -/
def execAddImm (x : Reg) (nn : Byte) (s : State) : Result := .next (s.setV x (s.getV x + nn))

/-- `ANNN` (R162). -/
def execLdI (addr : Addr) (s : State) : Result := .next (s.setI (addrWord addr))

/-- `CXNN` (R163): exactly one byte is drawn, and it is a free value (log entry 4). -/
def execRnd (x : Reg) (nn : Byte) (s : State) : Result :=
  let r := s.drawRandom
  .next (r.2.setV x (nn &&& r.1))

end Sys2Proof.Machine
end

