-- ==== Sys2Proof/Machine/Display.lean ====
section
/-! DEFINITION. Framebuffer instructions (rules R190 to R192). -/

namespace Sys2Proof.Machine

/-- The framebuffer with every pixel unlit. -/
def fbClear : FrameBuffer := Vector.replicate 32 (Vector.replicate 64 false)

/-- `00E0` (R190). -/
def execCls (s : State) : Result := .next (s.setFb fbClear)

/-- One set sprite bit at column `cx` and row `cy`: a lit pixel goes out and the collision is noted, an unlit one is
lit (R191). -/
def fbFlip (cx cy : Nat) (acc : FrameBuffer × Bool) : FrameBuffer × Bool :=
  if fbPixel acc.1 cx cy then (fbSet acc.1 cx cy false, true) else (fbSet acc.1 cx cy true, acc.2)

/-- The inner loop of R191 with `left` bits of `b` still to do, most significant first, the next at column `cx`; it is
left when the column exceeds 63. -/
def drawBits (b : Byte) (cy : Nat) : Nat → Nat → FrameBuffer × Bool → FrameBuffer × Bool
  | 0, _, acc => acc
  | left + 1, cx, acc =>
    if 63 < cx then acc
    else drawBits b cy left (cx + 1) (if b.getLsbD left then fbFlip cx cy acc else acc)

/-- The outer loop of R191 with `left` rows still to do, the next one sprite row `row` at screen row `cy`; the
instruction ends when the screen row exceeds 31. -/
def drawRows (s : State) (x0 : Nat) : Nat → Nat → Nat → FrameBuffer × Bool → FrameBuffer × Bool
  | 0, _, _, acc => acc
  | left + 1, row, cy, acc =>
    if 31 < cy then acc
    else drawRows s x0 left (row + 1) (cy + 1) (drawBits (s.readMem (s.effAddr row)) cy 8 x0 acc)

/-- `DXYN` (R191). Both coordinates are read before the flag is cleared; the loops read no register. -/
def execDrw (x y : Reg) (n : Fin 16) (s : State) : Result :=
  let x0 := startColumn (s.getV x)
  let y0 := startRow (s.getV y)
  let s1 := s.setV flagReg 0
  let r := drawRows s1 x0 n.val 0 y0 (s1.fb, false)
  .next ((s1.setFb r.1).setV flagReg (collisionFlag r.2))

end Sys2Proof.Machine
end

