-- ==== Sys2Proof/Machine/Flow.lean ====
section
/-! DEFINITION. Control transfer (rules R140 to R144). In every meaning `pc` has already been advanced (R23, R124). -/

namespace Sys2Proof.Machine

/-- `00EE` (R141). -/
def execRet (s : State) : Result :=
  match s.pop with
  | none => raise .stackUnderflow s
  | some (w, t) => .next (t.setPc w)

/-- `1NNN` (R142). -/
def execJp (addr : Addr) (s : State) : Result := .next (s.setPc (addrWord addr))

/-- `2NNN` (R143). -/
def execCall (addr : Addr) (s : State) : Result :=
  match s.push s.pc with
  | none => raise .stackOverflow s
  | some t => .next (t.setPc (addrWord addr))

/-- `BNNN` (R144). The sum is at most 0x10FE and never wraps. -/
def execJpV0 (addr : Addr) (s : State) : Result := .next (s.setPc (addrWord addr + byteWord (s.getV 0)))

end Sys2Proof.Machine
end

