-- ==== Sys2Proof/Machine/IndexMemory.lean ====
section
/-! DEFINITION. Index register and memory transfer (rules R210 to R215). No load or store changes `I` (R210). -/

namespace Sys2Proof.Machine

/-- `FX1E` (R211): wraps at 16 bits, no flag. -/
def execAddI (x : Reg) (s : State) : Result := .next (s.setI (s.ireg + byteWord (s.getV x)))

/-- `FX29` (R212): it computes an address and reads no memory. -/
def execLdFont (x : Reg) (s : State) : Result := .next (s.setI (glyphAddress (lowDigit (s.getV x))))

/-- `FX33` (R213). -/
def execLdBcd (x : Reg) (s : State) : Result :=
  .next (State.storeBytes (s.effAddr 0) (decimalDigits (s.getV x)) s)

/-- `FX55` (R214): `V[0]` to `V[x]`, ascending. -/
def execStoreRegs (x : Reg) (s : State) : Result :=
  .next (State.storeBytes (s.effAddr 0) (s.v.toList.take (x.val + 1)) s)

/-- `FX65` (R215): `V[0]` to `V[x]`, ascending. -/
def execLoadRegs (x : Reg) (s : State) : Result := .next (State.loadBytes (s.effAddr 0) (x.val + 1) s)

end Sys2Proof.Machine
end

