-- ==== Sys2Proof/Machine/Skip.lean ====
section
/-! DEFINITION. Conditional skips (rules R150 to R155). -/

namespace Sys2Proof.Machine

/-- `3XNN` (R151). -/
def execSeImm (x : Reg) (nn : Byte) (s : State) : Result := .next (s.skipIf (s.getV x == nn))

/-- `4XNN` (R152). -/
def execSneImm (x : Reg) (nn : Byte) (s : State) : Result := .next (s.skipIf (s.getV x != nn))

/-- `5XY0` (R153). -/
def execSeReg (x y : Reg) (s : State) : Result := .next (s.skipIf (s.getV x == s.getV y))

/-- `EX9E` (R154). -/
def execSkp (x : Reg) (s : State) : Result := .next (s.skipIf (s.keyHeld (lowDigit (s.getV x)).val))

/-- `EXA1` (R155). -/
def execSknp (x : Reg) (s : State) : Result := .next (s.skipIf (!s.keyHeld (lowDigit (s.getV x)).val))

end Sys2Proof.Machine
end

