-- ==== Sys2Proof/Machine/TimerKey.lean ====
section
/-! DEFINITION. Timer and keypad register access (rules R200 to R203). -/

namespace Sys2Proof.Machine

/-- `FX07` (R200). -/
def execGetDT (x : Reg) (s : State) : Result := .next (s.setV x s.dt)

/-- `FX0A` (R201): with no key held the advance is undone. -/
def execWaitKey (x : Reg) (s : State) : Result :=
  match firstHeldKey s.key with
  | some k => .next (s.setV x (BitVec.ofNat 8 k))
  | none => .next (s.setPc (s.pc - 2))

/-- `FX15` (R202). -/
def execSetDT (x : Reg) (s : State) : Result := .next (s.setDT (s.getV x))

/-- `FX18` (R203). -/
def execSetST (x : Reg) (s : State) : Result := .next (s.setST (s.getV x))

end Sys2Proof.Machine
end

