-- ==== Sys2Proof/Machine/Unrecognised.lean ====
section
/-! DEFINITION. Unrecognised instruction words (rules R220, R221). -/

namespace Sys2Proof.Machine

/-- Any word no row matches: nothing happens, and nothing is recorded (R220). -/
def execUnrecognised (_w : Word) (s : State) : Result := .next s

end Sys2Proof.Machine
end

