-- ==== Sys2Proof/Machine/Step.lean ====
section
/-! DEFINITION. One instruction step with the tick that may follow it (rules R120 to R131). -/

namespace Sys2Proof.Machine

/-- A step: if it is enabled (R120), fetch, advance, decode, execute, then the frame counter and perhaps the tick
(R125). -/
def step (s : State) : Host.Outcome State Fault Refusal :=
  match s.barred with
  | some outcome => outcome
  | none => afterExec (exec (decodeWord s.fetchWord) s.advance)

/-- The table's instruction word stored where `step` fetches, on a machine that is enabled to fetch (R120). -/
def State.withFetchWord (s : State) (nbits w : Nat) : State := s.enabledWith (tableWord nbits w)

end Sys2Proof.Machine
end

