-- ==== Sys2Proof/Safety.lean ====
section
/-! DEFINITION. What counts as a safe run, and the invariant of the machine. -/

namespace Sys2Proof.Machine

/-- The state `n` steps after `s`, when no step of them stops. -/
abbrev runs (n : Nat) (s t : State) : Prop := Sys2Proof.core.run n s = .next t

/-- A run of `n` steps from `s` is safe when it goes all the way with no fault latched (R234: a claim that a program
runs correctly must include that `FAULT = None` throughout). A latched fault stops the step after it, so it is enough
to look at the end. -/
def safeRun (n : Nat) (s : State) : Prop := ∃ t, runs n s t ∧ t.fault = none

/-- The invariant every step keeps: memory in canonical form (which keeps its addresses in R32's range), and the frame
counter inside the frame (R36: 0 to `IPF - 1`). That `SP` lies in 0 to 16 is in its type. -/
def State.Inv (s : State) : Prop := s.mem.wf = true ∧ s.fcnt < Config.ipf

/-- The parts of the state, for saying what an instruction leaves unchanged. -/
inductive Part where
  | v | pc | ireg | stack | dt | st | fb | key | mem | fault | fcnt | draws | frames | stopIn | stopped
  deriving DecidableEq, Repr

/-- The part has the same contents in both states. Registers and memory are compared as they are read, one register
and one address at a time; the call stack is `SP` and all sixteen entries. -/
def Part.same (s t : State) : Part → Prop
  | .v => ∀ r : Reg, t.getV r = s.getV r
  | .pc => t.pc = s.pc
  | .ireg => t.ireg = s.ireg
  | .stack => t.sp = s.sp ∧ t.stack = s.stack
  | .dt => t.dt = s.dt
  | .st => t.st = s.st
  | .fb => t.fb = s.fb
  | .key => t.key = s.key
  | .mem => ∀ a : Nat, t.readMem a = s.readMem a
  | .fault => t.fault = s.fault
  | .fcnt => t.fcnt = s.fcnt
  | .draws => t.draws = s.draws
  | .frames => t.frames = s.frames
  | .stopIn => t.stopIn = s.stopIn
  | .stopped => t.stopped = s.stopped

/-- Every part outside `changed` is the same in both states. -/
def onlyChanged (changed : List Part) (s t : State) : Prop := ∀ p : Part, p ∉ changed → p.same s t

end Sys2Proof.Machine
end

