-- ==== Sys2Proof/WellFormed.lean ====
section
/-! DEFINITION. Which instruction terms stand for a word. Register numbers and immediates carry their bounds in their
types, and every value of each field is legal (R21, R93), so the one check left is on `unrecognised`: its word must be
one that no row of R96 matches (R98). -/

namespace Sys2Proof

/-- The term is an instruction the decoder can produce. -/
def Instr.wellFormed : Instr → Bool
  | .unrecognised w => !recognised w
  | .cls | .ret => true
  | .jp _ | .call _ | .ldI _ | .jpV0 _ => true
  | .seImm _ _ | .sneImm _ _ | .ldImm _ _ | .addImm _ _ | .rnd _ _ => true
  | .seReg _ _ | .ldReg _ _ | .orReg _ _ | .andReg _ _ | .xorReg _ _ => true
  | .addReg _ _ | .subReg _ _ | .shr _ _ | .subnReg _ _ | .shl _ _ => true
  | .drw _ _ _ => true
  | .skp _ | .sknp _ | .getDT _ | .waitKey _ | .setDT _ | .setST _ => true
  | .addI _ | .ldFont _ | .ldBcd _ | .storeRegs _ | .loadRegs _ => true

end Sys2Proof
end

