-- ==== Sys2Proof/Certificates/Slice0/Obligations.lean ====
section
/-! DEFINITION. The statements for the provers. Statements about one instruction are about `exec`, the execute part of
a step, where `pc` has already been advanced (R23, R124). "The spec's decision D<k>" is a row of
spec/92_eei_decisions.md; a clause that rests on one is a choice the spec marks as its own, and the log entry named
beside it says so. -/

open Sys2Proof Sys2Proof.Machine

/-! ## Encoding -/

/-- R96 and R91, on words written out by hand: spot checks of section 2.10 of spec/95_test_vectors.md. That `0x5AB1`
and `0x9AB0` are unrecognised is the spec's decisions D7 and D8 (log entry 12); that the term of `0x8AB6` keeps the
ignored `y` is the model's own (log entry 11). -/
def Obligations.HandWrittenWordsDecode : Prop :=
  decodeWord 0x00E0 = .cls ∧ decodeWord 0x00EE = .ret ∧ decodeWord 0x1ABC = .jp 0xABC ∧
  decodeWord 0x5AB0 = .seReg 0xA 0xB ∧ decodeWord 0x8AB6 = .shr 0xA 0xB ∧ decodeWord 0xD123 = .drw 1 2 3 ∧
  decodeWord 0xE29E = .skp 2 ∧ decodeWord 0xFA65 = .loadRegs 0xA ∧ decodeWord 0x9AB0 = .unrecognised 0x9AB0 ∧
  decodeWord 0x5AB1 = .unrecognised 0x5AB1 ∧ decodeWord 0x0001 = .unrecognised 0x0001

/-- R90 to R96: decoding the word of a well-formed instruction gives the instruction back, every operand included
(that `y` of the shifts is kept too is the model's own, log entry 11). -/
def Obligations.DecodeOfEncodeIsIdentity : Prop :=
  ∀ i : Instr, i.wellFormed = true → decodeWord (encode i) = i

/-- R90, R123: every word is the encoding of what it decodes to, and what it decodes to is well-formed. For `8XY6`,
`8XYE` and the unrecognised words the first half holds because the term keeps the ignored `y` and the whole word,
which is the model's own choice (log entry 11), not said by either rule. -/
def Obligations.EveryWordIsTheEncodingOfItsInstruction : Prop :=
  ∀ w : Word, encode (decodeWord w) = w ∧ (decodeWord w).wellFormed = true

/-- R96: the dispatch of R94 agrees with the opcode map, row by row: a word matches a row exactly when it decodes to
that row's instruction. Every literal digit counts (the spec's decision D7). -/
def Obligations.DispatchAgreesWithTheOpcodeMap : Prop :=
  ∀ (w : Word) (r : OpcodeRow), r ∈ opcodeMap → (w &&& r.mask = r.pat ↔ (decodeWord w).mnemonic = r.mnemonic)

/-- R98: the words that decode as unrecognised are exactly the six classes listed there (the spec's decisions D7 and
D8, log entry 12). -/
def Obligations.UnrecognisedWordsAreTheListedClasses : Prop :=
  ∀ w : Word, decodeWord w = .unrecognised w ↔
    (w.toNat / 4096 = 0x0 ∧ w.toNat ≠ 0x00E0 ∧ w.toNat ≠ 0x00EE) ∨
    (w.toNat / 4096 = 0x5 ∧ w.toNat % 16 ≠ 0) ∨
    (w.toNat / 4096 = 0x8 ∧ (w.toNat % 16 = 0x8 ∨ w.toNat % 16 = 0x9 ∨ w.toNat % 16 = 0xA ∨ w.toNat % 16 = 0xB ∨
      w.toNat % 16 = 0xC ∨ w.toNat % 16 = 0xD ∨ w.toNat % 16 = 0xF)) ∨
    (w.toNat / 4096 = 0x9) ∨
    (w.toNat / 4096 = 0xE ∧ w.toNat % 256 ≠ 0x9E ∧ w.toNat % 256 ≠ 0xA1) ∨
    (w.toNat / 4096 = 0xF ∧ w.toNat % 256 ≠ 0x07 ∧ w.toNat % 256 ≠ 0x0A ∧ w.toNat % 256 ≠ 0x15 ∧
      w.toNat % 256 ≠ 0x18 ∧ w.toNat % 256 ≠ 0x1E ∧ w.toNat % 256 ≠ 0x29 ∧ w.toNat % 256 ≠ 0x33 ∧
      w.toNat % 256 ≠ 0x55 ∧ w.toNat % 256 ≠ 0x65)

/-- R62, R90: an instruction's two bytes at the head of a byte string are read back as it, whatever follows; a string
shorter than a word is rejected by name. -/
def Obligations.BytesOfAnInstructionAreReadBack : Prop :=
  (∀ (i : Instr) (rest : List Byte), i.wellFormed = true → decodeBytes (encodeBytes i ++ rest) = .ok (i, rest)) ∧
  (∀ bs : List Byte, bs.length < 2 → decodeBytes bs = .error (.truncated bs.length))

/-! ## Reset and loading -/

/-- R45: every piece of state after reset with an empty image. The source gives `pc`, the empty stack and the font's
place; the rest is the spec's own: zeros (decisions D3, D12, log entry 7), the font's bytes (D4, log entry 8), `FAULT`
and `FCNT` (D9, D11). -/
def Obligations.ResetStateIsAsTabulated : Prop :=
  State.reset.pc = 0x0200 ∧ State.reset.sp = 0 ∧ State.reset.fault = none ∧ State.reset.fcnt = 0 ∧
  (∀ r : Reg, State.reset.getV r = 0) ∧ State.reset.ireg = 0 ∧ State.reset.dt = 0 ∧ State.reset.st = 0 ∧
  State.reset.key = 0 ∧ (∀ cx cy : Nat, State.reset.pixel cx cy = false) ∧
  (∀ a : Nat, a < 4096 → State.reset.readMem a =
    if 0x050 ≤ a ∧ a < 0x0A0 then font.getD (a - 0x050) 0 else 0)

/-- R273, R272: loading copies the first 3584 bytes of the image to 0x200 onward, byte for byte; every other cell,
the font among them, and every other part of the state is as reset leaves it (zero after the image by the spec's
decision D3, log entry 7). -/
def Obligations.RomIsCopiedVerbatimAndTruncated : Prop :=
  ∀ rom : List Byte,
    (∀ k : Nat, k < rom.length → k < 3584 → (boot rom).readMem (0x200 + k) = rom.getD k 0) ∧
    (∀ a : Nat, a < 4096 → (a < 0x200 ∨ 0x200 + rom.length ≤ a) → (boot rom).readMem a = State.reset.readMem a) ∧
    onlyChanged [.mem] State.reset (boot rom)

/-- R271: the first instruction executed is the word made of the first two bytes of the image, first byte most
significant. -/
def Obligations.FirstInstructionIsTheImagesFirstWord : Prop :=
  ∀ (first second : Byte) (rest : List Byte), step (boot (first :: second :: rest)) =
    afterExec (exec (decodeWord (first ++ second)) (boot (first :: second :: rest)).advance)

/-! ## Memory and fetch -/

/-- R61, R68: a cell reads as last written, and a write leaves every other cell alone; addresses are reduced modulo
4096 (the spec's decision D1, log entry 1). -/
def Obligations.MemoryReadsWhatWasLastWritten : Prop :=
  ∀ (s : State) (a b : Nat) (w : Byte),
    (s.writeMem a w).readMem b = (if b % 4096 = a % 4096 then w else s.readMem b) ∧
    onlyChanged [.mem] s (s.writeMem a w)

/-- R62, R121: fetch is two byte reads, big-endian, at `pc` and `pc + 1` each modulo 4096, whatever the parity of `pc`
(the modulo is the spec's decision D1, log entry 1). -/
def Obligations.FetchIsBigEndianModulo4096 : Prop :=
  ∀ s : State, s.fetchWord.toNat =
    (s.readMem (s.pc.toNat % 4096)).toNat * 256 + (s.readMem ((s.pc.toNat + 1) % 4096)).toNat

/-- R78: bytes stored by `FX55` are what a later fetch reads there, the next one included: self-modifying code needs
no fence. Both `I + k` and `pc` are reduced modulo 4096, in the hypothesis too: the spec's decision D1 (log entry 1). -/
def Obligations.StoredCodeIsFetched : Prop :=
  ∀ (s : State) (x : Reg) (k : Nat) (hk : k + 1 ≤ x.val) (p : Word), p.toNat % 4096 = (s.effAddr k) % 4096 →
    ∃ t, exec (.storeRegs x) s = .next t ∧
      (t.setPc p).fetchWord = wordOfBytes (s.getV ⟨k, by omega⟩) (s.getV ⟨k + 1, by omega⟩)

/-! ## The step and the frame -/

/-- R125: when the word at `pc` decodes to `i` and a step is enabled (R120), the step is execute of `i` on the state
with `pc` advanced by 2; after a completed execute the frame counter moves on, and when it reaches `IPF` it returns
to 0, the tick happens with the snapshot of this frame (R129), and port `stop` is looked at (R131, the spec's
decision D16, log entry 6); after a raised fault the counter does not move and no tick follows (R233, the spec's
decision D9, log entry 13). That the tick is part of the step is DEDUCED (log entry 21). -/
def Obligations.StepRunsTheDecodedInstruction : Prop :=
  ∀ (s : State) (i : Instr), s.fault = none → s.stopped = false →
    decodeWord (wordOfBytes (s.readMem s.pc.toNat) (s.readMem (s.pc.toNat + 1))) = i →
    (∀ t, exec i (s.setPc (s.pc + 2)) = .next t → t.fault = none → t.fcnt + 1 = Config.ipf →
      step s = .next { tick (Config.keyIn t.frames) { t with fcnt := 0 } with stopped := t.stopped || t.stopIn }) ∧
    (∀ t, exec i (s.setPc (s.pc + 2)) = .next t → t.fault = none → t.fcnt + 1 ≠ Config.ipf →
      step s = .next { t with fcnt := t.fcnt + 1 }) ∧
    (∀ t, exec i (s.setPc (s.pc + 2)) = .next t → t.fault ≠ none → step s = .next t)

/-- R124, R236: execute of any instruction, in any state, answers a next state, either because it completes or
because it has raised a fault, which the model renders as a next state with the latch set (the model's rendering of
the spec's decision D9, log entry 13: R230 itself says only that the condition is fatal). So a step answers a next
state exactly when it is enabled (R120). -/
def Obligations.ExecuteAlwaysAnswersANextState : Prop :=
  (∀ (i : Instr) (s : State), ∃ t, exec i s = .next t) ∧
  (∀ s : State, (∃ t, step s = .next t) ↔ s.fault = none ∧ s.stopped = false)

/-- R130, R234 (the latch is the spec's decision D9, log entry 13): a halted machine takes no step, and reports its
fault however often it is asked; R120: neither does a run the host has ended (the refusal is the model's own, log
entry 6). -/
def Obligations.HaltedMachineTakesNoStep : Prop :=
  (∀ (s : State) (f : Fault) (n : Nat), s.fault = some f → Sys2Proof.core.run (n + 1) s = .fault f) ∧
  (∀ (s : State) (n : Nat), s.fault = none → s.stopped = true → Sys2Proof.core.run (n + 1) s = .refused .runEnded)

/-- R129: the tick replaces all sixteen key flags, counts both timers down by one without passing zero, pulses
`frame_done`, and changes nothing else. -/
def Obligations.TickLatchesKeysAndCountsDown : Prop :=
  ∀ (keys : BitVec 16) (s : State),
    (∀ k : Nat, k < 16 → (tick keys s).keyHeld k = keys.getLsbD k) ∧
    (tick keys s).dt.toNat = s.dt.toNat - 1 ∧ (tick keys s).st.toNat = s.st.toNat - 1 ∧
    frameDone s (tick keys s) = true ∧ onlyChanged [.key, .dt, .st, .frames] s (tick keys s)

/-- R28, R29: over any number of ticks, whatever keys they latch, each timer falls by one a tick and stays at zero. -/
def Obligations.TimersSaturateAtZeroOverManyTicks : Prop :=
  ∀ (snapshots : List (BitVec 16)) (s : State),
    (snapshots.foldl (fun u keys => tick keys u) s).dt.toNat = s.dt.toNat - snapshots.length ∧
    (snapshots.foldl (fun u keys => tick keys u) s).st.toNat = s.st.toNat - snapshots.length

/-- R128 (`IPF` is free, the spec's decision D5, log entry 3; the counter is its decision D11, log entry 17):
counting from any state whose frame counter is in range, after `n` completed steps the steps and ticks add up:
`frames * IPF + FCNT` has grown by `n`, and `FCNT` is again below `IPF`. From reset this is `FCNT = T mod IPF` and
`floor(T / IPF)` ticks. -/
def Obligations.StepsAndTicksAddUp : Prop :=
  ∀ (n : Nat) (s t : State), s.fcnt < Config.ipf → runs n s t → t.fault = none →
    t.frames * Config.ipf + t.fcnt = s.frames * Config.ipf + s.fcnt + n ∧ t.fcnt < Config.ipf

/-- R31, R129: the keypad latch changes only at a tick, which comes only when the step completes its frame, and then
it is the snapshot of that frame. -/
def Obligations.KeysChangeOnlyAtTicks : Prop :=
  ∀ s t : State, step s = .next t →
    (t.frames = s.frames ∧ t.key = s.key) ∨
    (t.frames = s.frames + 1 ∧ t.key = Config.keyIn s.frames ∧ s.fcnt + 1 = Config.ipf ∧ t.fcnt = 0)

/-- R131 (the spec's decision D16, log entry 6): a run ends by `stop` only at a frame boundary, after the tick, and
only if the port is asserted then. -/
def Obligations.StopEndsRunsOnlyAtFrameBoundaries : Prop :=
  ∀ s t : State, step s = .next t → t.stopped = true →
    s.stopIn = true ∧ t.frames = s.frames + 1 ∧ t.fcnt = 0 ∧ t.fault = none

/-- R24: where `pc` points after each instruction, `a` being the address it was fetched from (additions modulo 2^16
are the spec's decision D2, log entry 2). -/
def pcAfter (s : State) : Instr → Word
  | .ret => s.stack.toList.getD (s.sp.val - 1) 0
  | .jp addr => addr.setWidth 16
  | .call addr => addr.setWidth 16
  | .jpV0 addr => addr.setWidth 16 + (s.getV 0).setWidth 16
  | .seImm x nn => if s.getV x = nn then s.pc + 4 else s.pc + 2
  | .sneImm x nn => if s.getV x ≠ nn then s.pc + 4 else s.pc + 2
  | .seReg x y => if s.getV x = s.getV y then s.pc + 4 else s.pc + 2
  | .skp x => if s.key.getLsbD ((s.getV x).toNat % 16) = true then s.pc + 4 else s.pc + 2
  | .sknp x => if s.key.getLsbD ((s.getV x).toNat % 16) = false then s.pc + 4 else s.pc + 2
  | .waitKey _ => if s.key = 0 then s.pc else s.pc + 2
  | _ => s.pc + 2

/-- R24: every step that raises no fault moves `pc` as the table says. -/
def Obligations.StepMovesPcAsTabulated : Prop :=
  ∀ s t : State, step s = .next t → t.fault = none → t.pc = pcAfter s (decodeWord s.fetchWord)

/-- R232, R230 (the spec's decision D9, log entry 13): a step that raises a fault changes exactly `pc`, which has been
advanced, and the latch; only `2NNN` on a full stack and `00EE` on an empty one do so. -/
def Obligations.FaultingStepWritesOnlyPcAndLatch : Prop :=
  ∀ (s t : State) (f : Fault), step s = .next t → t.fault = some f →
    t.pc = s.pc + 2 ∧ onlyChanged [.pc, .fault] s t ∧
    ((f = .stackOverflow ∧ s.sp.val = 16 ∧ ∃ addr, decodeWord s.fetchWord = .call addr) ∨
     (f = .stackUnderflow ∧ s.sp.val = 0 ∧ decodeWord s.fetchWord = .ret))

/-! ## Invariants and whole-machine rules -/

/-- The memory's canonical form (log entry 14) and R36's range of the frame counter are kept by every step, from every
state that has them. -/
def Obligations.EveryStepKeepsTheInvariant : Prop :=
  ∀ s t : State, s.Inv → step s = .next t → t.Inv

/-- They hold right after reset, with every image. -/
def Obligations.InvariantHoldsAtBoot : Prop :=
  State.reset.Inv ∧ ∀ rom : List Byte, (boot rom).Inv

/-- Two states that differ at most in call-stack entries at or above `SP`. -/
def sameLiveState (s t : State) : Prop :=
  onlyChanged [.stack, .mem] s t ∧ t.mem = s.mem ∧ t.sp = s.sp ∧
  ∀ k : Nat, k < s.sp.val → t.stack.toList.getD k 0 = s.stack.toList.getD k 0

/-- R27: the contents of `STACK[k]` for `k >= SP` can never be observed: states that differ only there give the same
outcome, and next states that again differ only there. -/
def Obligations.DeadStackEntriesAreNeverObserved : Prop :=
  ∀ s t : State, sameLiveState s t →
    (∀ s', step s = .next s' → ∃ t', step t = .next t' ∧ sameLiveState s' t') ∧
    (∀ f, step s = .fault f → step t = .fault f) ∧ (∀ r, step s = .refused r → step t = .refused r)

/-- The registers R21 lets an instruction write, named or implicit. -/
def mayWriteReg : Instr → Reg → Prop
  | .ldImm x _, r | .addImm x _, r | .ldReg x _, r | .orReg x _, r | .andReg x _, r | .xorReg x _, r
  | .rnd x _, r | .getDT x, r | .waitKey x, r => r = x
  | .addReg x _, r | .subReg x _, r | .shr x _, r | .subnReg x _, r | .shl x _, r => r = x ∨ r = 0xF
  | .drw _ _ _, r => r = 0xF
  | .loadRegs x, r => r ≤ x
  | _, _ => False

/-- R21, R22: no instruction writes a general register other than as the table lists; in particular `V[0xF]` survives
every instruction that neither sets it as a flag nor names it. Of `7XNN` and `FX1E` the
source says so outright; of the others whose row lists no flag, `8XY1` to `8XY3` among them, it is the spec's decision
D17 (log entry 15). -/
def Obligations.OnlyListedRegistersAreWritten : Prop :=
  ∀ (i : Instr) (s t : State) (r : Reg), exec i s = .next t → ¬ mayWriteReg i r → t.getV r = s.getV r

/-- How many bytes an instruction stores through `I` (R66). -/
def storedBytes : Instr → Nat
  | .ldBcd _ => 3
  | .storeRegs x => x.val + 1
  | _ => 0

/-- R66: only `FX33` and `FX55` write memory, and only the cells of their effective addresses (R210; the reduction of
addresses is the spec's decision D1, log entry 1). -/
def Obligations.OnlyStoresChangeMemory : Prop :=
  ∀ (i : Instr) (s t : State) (a : Nat), exec i s = .next t →
    (∀ k < storedBytes i, Memory.cellOf a ≠ Memory.cellOf (s.effAddr k)) → t.readMem a = s.readMem a

/-- The parts of the state an instruction's rule lets it write (R20, R24, R37, R40, R192). -/
def mayWritePart : Instr → List Part
  | .cls => [.fb]
  | .ret => [.pc, .stack, .fault]
  | .jp _ | .jpV0 _ | .seImm _ _ | .sneImm _ _ | .seReg _ _ | .skp _ | .sknp _ => [.pc]
  | .call _ => [.pc, .stack, .fault]
  | .ldI _ | .addI _ | .ldFont _ => [.ireg]
  | .rnd _ _ => [.v, .draws]
  | .drw _ _ _ => [.v, .fb]
  | .waitKey _ => [.v, .pc]
  | .setDT _ => [.dt]
  | .setST _ => [.st]
  | .ldBcd _ | .storeRegs _ => [.mem]
  | .unrecognised _ => []
  | .ldImm _ _ | .addImm _ _ | .ldReg _ _ | .orReg _ _ | .andReg _ _ | .xorReg _ _ | .addReg _ _ | .subReg _ _
  | .shr _ _ | .subnReg _ _ | .shl _ _ | .getDT _ | .loadRegs _ => [.v]

/-- R37, R40, R192, R31: each special register, the stack, the framebuffer, the timers, the latch and memory are
written only by the instructions the tables name. That `I` stays after `FX33`, `FX55`, `FX65` and `DXYN` is the
spec's decision D17 (log entry 15); that a faulting `2NNN` or `00EE` writes no more than its latch is the spec's
decision D9 (log entry 13), and `StackFaultsSetTheLatchAlone` says it exactly. -/
def Obligations.ExecuteChangesOnlyTheListedParts : Prop :=
  ∀ (i : Instr) (s t : State), exec i s = .next t → onlyChanged (mayWritePart i) s t

/-! ## Control transfer -/

/-- R142: `1NNN` sets `pc` to `addr`, upper digit 0, odd or even, and changes nothing else. -/
def Obligations.JumpGoesToItsAddress : Prop :=
  ∀ (addr : Addr) (s : State), ∃ t, exec (.jp addr) s = .next t ∧
    t.pc.toNat = addr.toNat ∧ onlyChanged [.pc] s t

/-- R144: `BNNN` sets `pc` to the exact sum of `addr` and `V[0]`, with no wrap and no mask. -/
def Obligations.OffsetJumpAddsV0 : Prop :=
  ∀ (addr : Addr) (s : State), ∃ t, exec (.jpV0 addr) s = .next t ∧
    t.pc.toNat = addr.toNat + (s.getV 0).toNat ∧ onlyChanged [.pc] s t

/-- R143, with room on the stack: `2NNN` pushes the advanced `pc` and jumps; the older entries stay. -/
def Obligations.CallPushesAdvancedPc : Prop :=
  ∀ (addr : Addr) (s : State), s.sp.val < 16 → ∃ t, exec (.call addr) s = .next t ∧
    t.pc.toNat = addr.toNat ∧ t.sp.val = s.sp.val + 1 ∧ t.stack.toList.getD s.sp.val 0 = s.pc ∧
    (∀ k : Nat, k ≠ s.sp.val → t.stack.toList.getD k 0 = s.stack.toList.getD k 0) ∧ onlyChanged [.pc, .stack] s t

/-- R141, with an entry on the stack: `00EE` takes the newest entry whole into `pc`; no entry's contents change. -/
def Obligations.ReturnPopsNewestEntry : Prop :=
  ∀ s : State, 0 < s.sp.val → ∃ t, exec .ret s = .next t ∧
    t.pc = s.stack.toList.getD (s.sp.val - 1) 0 ∧ t.sp.val = s.sp.val - 1 ∧ t.stack = s.stack ∧
    onlyChanged [.pc, .stack] s t

/-- R230 to R233 (what a fault leaves behind is the spec's decision D9, log entry 13): `2NNN` with 16 entries and
`00EE` with none enter their fault, which sets the latch and writes nothing else: nothing is pushed, no jump is made. -/
def Obligations.StackFaultsSetTheLatchAlone : Prop :=
  (∀ (addr : Addr) (s : State), s.sp.val = 16 → ∃ t, exec (.call addr) s = .next t ∧
    t.fault = some .stackOverflow ∧ onlyChanged [.fault] s t) ∧
  (∀ s : State, s.sp.val = 0 → ∃ t, exec .ret s = .next t ∧
    t.fault = some .stackUnderflow ∧ onlyChanged [.fault] s t)

/-- R141 and R143 together (example E5): whatever a routine does, if it leaves `SP` and the live entries as it found
them, its `00EE` goes back to the instruction after the call. -/
def Obligations.CallThenReturnComesBack : Prop :=
  ∀ (addr : Addr) (s u : State), s.sp.val < 16 → ∃ t, exec (.call addr) s = .next t ∧
    (u.sp = t.sp → (∀ k : Nat, k < t.sp.val → u.stack.toList.getD k 0 = t.stack.toList.getD k 0) →
      ∃ w, exec .ret u = .next w ∧ w.pc = s.pc ∧ w.sp = s.sp)

/-! ## Skips -/

/-- R150 to R155: each skip adds 2 more to `pc` when its condition holds, and otherwise changes nothing (the wrap at
16 bits is the spec's decision D2, log entry 2). Only the low four bits of `V[x]` choose a key. -/
def Obligations.SkipsAddTwoWhenTheirConditionHolds : Prop :=
  ∀ (x y : Reg) (nn : Byte) (s : State),
    (∃ t, exec (.seImm x nn) s = .next t ∧ onlyChanged [.pc] s t ∧
      t.pc = if s.getV x = nn then s.pc + 2 else s.pc) ∧
    (∃ t, exec (.sneImm x nn) s = .next t ∧ onlyChanged [.pc] s t ∧
      t.pc = if s.getV x ≠ nn then s.pc + 2 else s.pc) ∧
    (∃ t, exec (.seReg x y) s = .next t ∧ onlyChanged [.pc] s t ∧
      t.pc = if s.getV x = s.getV y then s.pc + 2 else s.pc) ∧
    (∃ t, exec (.skp x) s = .next t ∧ onlyChanged [.pc] s t ∧
      t.pc = if s.keyHeld ((s.getV x).toNat % 16) = true then s.pc + 2 else s.pc) ∧
    (∃ t, exec (.sknp x) s = .next t ∧ onlyChanged [.pc] s t ∧
      t.pc = if s.keyHeld ((s.getV x).toNat % 16) = false then s.pc + 2 else s.pc)

/-! ## Immediates and random -/

/-- R160: straight after `6XNN`, `V[x] = nn`, for every `x`; nothing else changes. -/
def Obligations.LoadImmediateSetsItsRegister : Prop :=
  ∀ (x : Reg) (nn : Byte) (s : State), ∃ t, exec (.ldImm x nn) s = .next t ∧
    t.getV x = nn ∧ (∀ r : Reg, r ≠ x → t.getV r = s.getV r) ∧ onlyChanged [.v] s t

/-- R161: `7XNN` adds modulo 256 and writes no flag. -/
def Obligations.AddImmediateWrapsWithoutFlag : Prop :=
  ∀ (x : Reg) (nn : Byte) (s : State), ∃ t, exec (.addImm x nn) s = .next t ∧
    (t.getV x).toNat = ((s.getV x).toNat + nn.toNat) % 256 ∧ (∀ r : Reg, r ≠ x → t.getV r = s.getV r) ∧
    onlyChanged [.v] s t

/-- R162: `ANNN` loads `I`, upper digit 0. -/
def Obligations.LoadIndexSetsI : Prop :=
  ∀ (addr : Addr) (s : State), ∃ t, exec (.ldI addr) s = .next t ∧
    t.ireg.toNat = addr.toNat ∧ onlyChanged [.ireg] s t

/-- R163 (the byte is free, the spec's decision D13, log entry 4: this holds whatever it is): `CXNN` draws exactly one
byte, and `V[x]` is `nn` and that byte, so every bit clear in `nn` is clear in it. -/
def Obligations.RandomIsMaskedByItsImmediate : Prop :=
  ∀ (x : Reg) (nn : Byte) (s : State), ∃ t, exec (.rnd x nn) s = .next t ∧
    t.getV x = nn &&& Config.randomByte s.draws ∧ t.draws = s.draws + 1 ∧ t.getV x &&& ~~~nn = 0 ∧
    (∀ r : Reg, r ≠ x → t.getV r = s.getV r) ∧ onlyChanged [.v, .draws] s t

/-! ## Register-to-register operations -/

/-- R170: `8XY0` copies, and changes nothing else. -/
def Obligations.CopyMovesRegister : Prop :=
  ∀ (x y : Reg) (s : State), ∃ t, exec (.ldReg x y) s = .next t ∧
    t.getV x = s.getV y ∧ (∀ r : Reg, r ≠ x → t.getV r = s.getV r) ∧ onlyChanged [.v] s t

/-- R171 to R173 (that `V[0xF]` is not cleared is the spec's decision D17, log entry 15): the logical operations, bit
by bit, with no flag. -/
def Obligations.LogicalOperationsActBitwiseWithoutFlag : Prop :=
  ∀ (x y : Reg) (s : State),
    (∃ t, exec (.orReg x y) s = .next t ∧ onlyChanged [.v] s t ∧ (∀ r : Reg, r ≠ x → t.getV r = s.getV r) ∧
      ∀ k : Nat, k < 8 → (t.getV x).getLsbD k = ((s.getV x).getLsbD k || (s.getV y).getLsbD k)) ∧
    (∃ t, exec (.andReg x y) s = .next t ∧ onlyChanged [.v] s t ∧ (∀ r : Reg, r ≠ x → t.getV r = s.getV r) ∧
      ∀ k : Nat, k < 8 → (t.getV x).getLsbD k = ((s.getV x).getLsbD k && (s.getV y).getLsbD k)) ∧
    (∃ t, exec (.xorReg x y) s = .next t ∧ onlyChanged [.v] s t ∧ (∀ r : Reg, r ≠ x → t.getV r = s.getV r) ∧
      ∀ k : Nat, k < 8 → (t.getV x).getLsbD k = Bool.xor ((s.getV x).getLsbD k) ((s.getV y).getLsbD k))

/-- R174: `8XY4` gives the low byte of the exact sum, and `V[0xF]` the carry; with `x = 0xF` the low byte is written
last and stays (that order is the spec's decision D6, log entry 9). -/
def Obligations.AddSetsCarry : Prop :=
  ∀ (x y : Reg) (s : State), ∃ t, exec (.addReg x y) s = .next t ∧
    (t.getV x).toNat = ((s.getV x).toNat + (s.getV y).toNat) % 256 ∧
    (x ≠ 0xF → t.getV 0xF = if 255 < (s.getV x).toNat + (s.getV y).toNat then 1 else 0) ∧
    (∀ r : Reg, r ≠ x → r ≠ 0xF → t.getV r = s.getV r) ∧ onlyChanged [.v] s t

/-- The flag of R175 and R177 as a number: 0 on borrow, else 1. -/
def noBorrow (a b : Byte) : Nat := if a.toNat < b.toNat then 0 else 1

/-- R175: `8XY5`, in all four cases of its operands being the flag register or not. The flag is written first and read
back where `V[0xF]` is an operand (the spec's decision D6, log entry 9). -/
def Obligations.SubtractSetsNoBorrow : Prop :=
  ∀ (x y : Reg) (s : State), ∃ t, exec (.subReg x y) s = .next t ∧
    (x ≠ 0xF → y ≠ 0xF → (t.getV x).toNat = ((s.getV x).toNat + 256 - (s.getV y).toNat) % 256) ∧
    (x = 0xF → y ≠ 0xF → (t.getV 0xF).toNat = (noBorrow (s.getV x) (s.getV y) + 256 - (s.getV y).toNat) % 256) ∧
    (x ≠ 0xF → y = 0xF → (t.getV x).toNat = ((s.getV x).toNat + 256 - noBorrow (s.getV x) (s.getV y)) % 256) ∧
    (x = 0xF → y = 0xF → t.getV 0xF = 0) ∧
    (x ≠ 0xF → (t.getV 0xF).toNat = noBorrow (s.getV x) (s.getV y)) ∧
    (∀ r : Reg, r ≠ x → r ≠ 0xF → t.getV r = s.getV r) ∧ onlyChanged [.v] s t

/-- R177: `8XY7`, in the same four cases. -/
def Obligations.ReverseSubtractSetsNoBorrow : Prop :=
  ∀ (x y : Reg) (s : State), ∃ t, exec (.subnReg x y) s = .next t ∧
    (x ≠ 0xF → y ≠ 0xF → (t.getV x).toNat = ((s.getV y).toNat + 256 - (s.getV x).toNat) % 256) ∧
    (x = 0xF → y ≠ 0xF → (t.getV 0xF).toNat = ((s.getV y).toNat + 256 - noBorrow (s.getV y) (s.getV x)) % 256) ∧
    (x ≠ 0xF → y = 0xF → (t.getV x).toNat = (noBorrow (s.getV y) (s.getV x) + 256 - (s.getV x).toNat) % 256) ∧
    (x = 0xF → y = 0xF → t.getV 0xF = 0) ∧
    (x ≠ 0xF → (t.getV 0xF).toNat = noBorrow (s.getV y) (s.getV x)) ∧
    (∀ r : Reg, r ≠ x → r ≠ 0xF → t.getV r = s.getV r) ∧ onlyChanged [.v] s t

/-- R176, R178: the shifts move `V[x]` by one place, whatever `y` is, and `V[0xF]` gets the bit that fell out; it is
written last, so with `x = 0xF` it is that bit (the order is the spec's decision D6, log entry 9). -/
def Obligations.ShiftsMoveOnePlaceAndKeepTheBit : Prop :=
  ∀ (x y : Reg) (s : State),
    (∃ t, exec (.shr x y) s = .next t ∧ (t.getV 0xF).toNat = (s.getV x).toNat % 2 ∧
      (x ≠ 0xF → (t.getV x).toNat = (s.getV x).toNat / 2) ∧
      (∀ r : Reg, r ≠ x → r ≠ 0xF → t.getV r = s.getV r) ∧ onlyChanged [.v] s t) ∧
    (∃ t, exec (.shl x y) s = .next t ∧ (t.getV 0xF).toNat = (s.getV x).toNat / 128 ∧
      (x ≠ 0xF → (t.getV x).toNat = (s.getV x).toNat * 2 % 256) ∧
      (∀ r : Reg, r ≠ x → r ≠ 0xF → t.getV r = s.getV r) ∧ onlyChanged [.v] s t)

/-! ## Framebuffer -/

/-- R190: `00E0` leaves every pixel unlit, and changes nothing else. -/
def Obligations.ClearUnlightsEveryPixel : Prop :=
  ∀ s : State, ∃ t, exec .cls s = .next t ∧
    (∀ cx cy : Nat, t.pixel cx cy = false) ∧ onlyChanged [.fb] s t

/-- The sprite bit of R191 for row `r` and column `c` of the sprite at `I`. -/
def spriteBit (s : State) (r c : Nat) : Bool := (s.readMem (s.effAddr r)).getLsbD (7 - c)

/-- R191: `DXYN` in the rule's closed form. With `x0`, `y0` the reduced start, the clipped rectangle of `R` rows and
`C` columns is exclusive-ored with the sprite, every pixel outside it stays, and `V[0xF]` is 1 exactly if a set bit
met a lit pixel, else 0. Coordinates come from the registers as they were, `V[0xF]` included. That `I` stays is the
spec's decision D17 (log entry 15), and sprite addresses modulo 4096 are its decision D1 (log entry 1). -/
def Obligations.DrawMatchesTheClosedForm : Prop :=
  ∀ (x y : Reg) (n : Fin 16) (s : State) (x0 y0 R C : Nat),
    x0 = (s.getV x).toNat % 64 → y0 = (s.getV y).toNat % 32 → R = min n.val (32 - y0) → C = min 8 (64 - x0) →
    ∃ t, exec (.drw x y n) s = .next t ∧
      (∀ r c : Nat, r < R → c < C →
        t.pixel (x0 + c) (y0 + r) = Bool.xor (s.pixel (x0 + c) (y0 + r)) (spriteBit s r c)) ∧
      (∀ cx cy : Nat, ¬ (x0 ≤ cx ∧ cx < x0 + C ∧ y0 ≤ cy ∧ cy < y0 + R) → t.pixel cx cy = s.pixel cx cy) ∧
      ((∃ r c : Nat, r < R ∧ c < C ∧ spriteBit s r c = true ∧ s.pixel (x0 + c) (y0 + r) = true) →
        t.getV 0xF = 1) ∧
      ((∀ r c : Nat, r < R → c < C → spriteBit s r c = true → s.pixel (x0 + c) (y0 + r) = false) →
        t.getV 0xF = 0) ∧
      (∀ r : Reg, r ≠ 0xF → t.getV r = s.getV r) ∧ onlyChanged [.v, .fb] s t

/-- R191 (example E6 in the exact form of conflict C9): drawing the same sprite twice restores the framebuffer, and
the second draw sets `V[0xF]` to 1 exactly if some drawn bit fell on a pixel unlit before the first. The coordinates
must not be in `V[0xF]`, which the first draw overwrites. The second draw finds the same sprite because `I` stays,
the spec's decision D17 (log entry 15). -/
def Obligations.DrawingTwiceRestoresTheScreen : Prop :=
  ∀ (x y : Reg) (n : Fin 16) (s : State), x ≠ 0xF → y ≠ 0xF →
    ∃ t u, exec (.drw x y n) s = .next t ∧ exec (.drw x y n) t = .next u ∧ u.fb = s.fb ∧
      (u.getV 0xF = 1 ↔ ∃ r c : Nat, r < n.val ∧ (s.getV y).toNat % 32 + r < 32 ∧ c < 8 ∧
        (s.getV x).toNat % 64 + c < 64 ∧ spriteBit s r c = true ∧
        s.pixel ((s.getV x).toNat % 64 + c) ((s.getV y).toNat % 32 + r) = false)

/-! ## Timers and keypad -/

/-- R200: `FX07` reads the delay timer and does not change it. -/
def Obligations.ReadTimerCopiesDT : Prop :=
  ∀ (x : Reg) (s : State), ∃ t, exec (.getDT x) s = .next t ∧
    t.getV x = s.dt ∧ (∀ r : Reg, r ≠ x → t.getV r = s.getV r) ∧ onlyChanged [.v] s t

/-- R202, R203: `FX15` and `FX18` set their timer to any 8-bit value; the tone follows `ST` at once (R254). -/
def Obligations.SetTimersCopyTheRegister : Prop :=
  ∀ (x : Reg) (s : State),
    (∃ t, exec (.setDT x) s = .next t ∧ t.dt = s.getV x ∧ onlyChanged [.dt] s t) ∧
    (∃ t, exec (.setST x) s = .next t ∧ t.st = s.getV x ∧ t.stOut = s.getV x ∧
      (t.toneOn = true ↔ s.getV x ≠ 0) ∧ onlyChanged [.st] s t)

/-- R201: `FX0A` takes the lowest-numbered held key; with none held it undoes the advance and changes nothing else
(the wrap of `pc - 2` is the spec's decision D2, log entry 2). -/
def Obligations.WaitForKeyTakesLowestOrRewinds : Prop :=
  ∀ (x : Reg) (s : State),
    (∀ k : Nat, k < 16 → s.keyHeld k = true → (∀ j < k, s.keyHeld j = false) →
      ∃ t, exec (.waitKey x) s = .next t ∧ (t.getV x).toNat = k ∧
        (∀ r : Reg, r ≠ x → t.getV r = s.getV r) ∧ onlyChanged [.v] s t) ∧
    ((∀ k : Nat, k < 16 → s.keyHeld k = false) →
      ∃ t, exec (.waitKey x) s = .next t ∧ t.pc = s.pc - 2 ∧ onlyChanged [.pc] s t)

/-- R201 (example E8): a whole step of `FX0A` with no key held leaves everything as it was, `pc` included, apart from
the frame counter and what a tick that follows changes (the wrap of `pc` is the spec's decision D2, log entry 2; that
the tick is part of the step is DEDUCED, log entry 21; the ended mark is the model's own, log entry 6). -/
def Obligations.WaitingStepChangesNothingButTheFrame : Prop :=
  ∀ (x : Reg) (s : State), s.fault = none → s.stopped = false → decodeWord s.fetchWord = .waitKey x →
    (∀ k : Nat, k < 16 → s.keyHeld k = false) →
    ∃ t, step s = .next t ∧ t.pc = s.pc ∧ onlyChanged [.fcnt, .key, .dt, .st, .frames, .stopped] s t

/-! ## Index register and memory transfer -/

/-- R211: `FX1E` adds to `I` modulo 65536 and writes no flag. -/
def Obligations.AddToIndexWrapsWithoutFlag : Prop :=
  ∀ (x : Reg) (s : State), ∃ t, exec (.addI x) s = .next t ∧
    t.ireg.toNat = (s.ireg.toNat + (s.getV x).toNat) % 65536 ∧ onlyChanged [.ireg] s t

/-- R212: `FX29` points `I` at the glyph of the low four bits of `V[x]`; it reads no memory. -/
def Obligations.FontAddressIsFiveBytesPerDigit : Prop :=
  ∀ (x : Reg) (s : State), ∃ t, exec (.ldFont x) s = .next t ∧
    t.ireg.toNat = 0x50 + 5 * ((s.getV x).toNat % 16) ∧ onlyChanged [.ireg] s t

/-- R213: `FX33` stores the three decimal digits of `V[x]`, which make it up again, at `I`, `I + 1`, `I + 2`; no
other cell changes, and `I` stays (R210; addresses modulo 4096 and that `I` stays are the spec's decisions D1 and
D17, log entries 1 and 15). -/
def Obligations.DecimalDigitsAreStored : Prop :=
  ∀ (x : Reg) (s : State), ∃ t, exec (.ldBcd x) s = .next t ∧
    (t.readMem (s.effAddr 0)).toNat * 100 + (t.readMem (s.effAddr 1)).toNat * 10 + (t.readMem (s.effAddr 2)).toNat =
      (s.getV x).toNat ∧
    (t.readMem (s.effAddr 0)).toNat ≤ 2 ∧ (t.readMem (s.effAddr 1)).toNat ≤ 9 ∧ (t.readMem (s.effAddr 2)).toNat ≤ 9 ∧
    (∀ a : Nat, (∀ k < 3, Memory.cellOf a ≠ Memory.cellOf (s.effAddr k)) → t.readMem a = s.readMem a) ∧
    onlyChanged [.mem] s t

/-- R214: `FX55` stores `V[0]` to `V[x]` from `I` upward; no other cell changes, and `I` stays (R210; decisions D1 and
D17, log entries 1 and 15). -/
def Obligations.RegistersAreStoredFromI : Prop :=
  ∀ (x : Reg) (s : State), ∃ t, exec (.storeRegs x) s = .next t ∧
    (∀ r : Reg, r ≤ x → t.readMem (s.effAddr r.val) = s.getV r) ∧
    (∀ a : Nat, (∀ k < x.val + 1, Memory.cellOf a ≠ Memory.cellOf (s.effAddr k)) → t.readMem a = s.readMem a) ∧
    onlyChanged [.mem] s t

/-- R215: `FX65` loads `V[0]` to `V[x]` from `I` upward; the registers above `V[x]`, memory and `I` stay (R210;
decisions D1 and D17, log entries 1 and 15). -/
def Obligations.RegistersAreLoadedFromI : Prop :=
  ∀ (x : Reg) (s : State), ∃ t, exec (.loadRegs x) s = .next t ∧
    (∀ r : Reg, r ≤ x → t.getV r = s.readMem (s.effAddr r.val)) ∧
    (∀ r : Reg, x < r → t.getV r = s.getV r) ∧ onlyChanged [.v] s t

/-- R214 and R215 together: registers stored by `FX55` come back by `FX65` with the same `x`, `I` and memory,
whatever else has changed between. The premise names `I` after the store, which is `I` before it by the spec's
decision D17 (log entry 15). -/
def Obligations.StoredRegistersComeBack : Prop :=
  ∀ (x : Reg) (s u : State), ∃ t, exec (.storeRegs x) s = .next t ∧
    (u.ireg = t.ireg → (∀ a : Nat, u.readMem a = t.readMem a) →
      ∃ w, exec (.loadRegs x) u = .next w ∧ ∀ r : Reg, r ≤ x → w.getV r = s.getV r)

/-! ## Unrecognised words -/

/-- R220: execute of an unrecognised word does nothing, and a whole step of one advances `pc` and moves the frame on,
no more (the wrap of `pc + 2` is the spec's decision D2, log entry 2; that the tick is part of the step is DEDUCED,
log entry 21; the ended mark is the model's own, log entry 6). -/
def Obligations.UnrecognisedWordsDoNothing : Prop :=
  (∀ (w : Word) (s : State), ∃ t, exec (.unrecognised w) s = .next t ∧ onlyChanged [] s t) ∧
  (∀ (w : Word) (s : State), s.fault = none → s.stopped = false → decodeWord s.fetchWord = .unrecognised w →
    ∃ t, step s = .next t ∧ t.pc = s.pc + 2 ∧
      onlyChanged [.pc, .fcnt, .key, .dt, .st, .frames, .stopped] s t)
end

