-- ==== Sys2Proof/Laws/State.lean ====
section
/-! SUPPORT. One lemma per field per update of the state, so that no proof unfolds a record update. -/

namespace Sys2Proof.Machine

variable (s : State)

/-! ## setV -/

@[simp] theorem State.setV_v (x : Reg) (b : Byte) : (s.setV x b).v = s.v.set x.val b := rfl
@[simp] theorem State.setV_pc (x : Reg) (b : Byte) : (s.setV x b).pc = s.pc := rfl
@[simp] theorem State.setV_ireg (x : Reg) (b : Byte) : (s.setV x b).ireg = s.ireg := rfl
@[simp] theorem State.setV_sp (x : Reg) (b : Byte) : (s.setV x b).sp = s.sp := rfl
@[simp] theorem State.setV_stack (x : Reg) (b : Byte) : (s.setV x b).stack = s.stack := rfl
@[simp] theorem State.setV_dt (x : Reg) (b : Byte) : (s.setV x b).dt = s.dt := rfl
@[simp] theorem State.setV_st (x : Reg) (b : Byte) : (s.setV x b).st = s.st := rfl
@[simp] theorem State.setV_fb (x : Reg) (b : Byte) : (s.setV x b).fb = s.fb := rfl
@[simp] theorem State.setV_key (x : Reg) (b : Byte) : (s.setV x b).key = s.key := rfl
@[simp] theorem State.setV_mem (x : Reg) (b : Byte) : (s.setV x b).mem = s.mem := rfl
@[simp] theorem State.setV_fault (x : Reg) (b : Byte) : (s.setV x b).fault = s.fault := rfl
@[simp] theorem State.setV_fcnt (x : Reg) (b : Byte) : (s.setV x b).fcnt = s.fcnt := rfl
@[simp] theorem State.setV_draws (x : Reg) (b : Byte) : (s.setV x b).draws = s.draws := rfl
@[simp] theorem State.setV_frames (x : Reg) (b : Byte) : (s.setV x b).frames = s.frames := rfl
@[simp] theorem State.setV_stopIn (x : Reg) (b : Byte) : (s.setV x b).stopIn = s.stopIn := rfl
@[simp] theorem State.setV_stopped (x : Reg) (b : Byte) : (s.setV x b).stopped = s.stopped := rfl

/-! ## setPc -/

@[simp] theorem State.setPc_v (t : Word) : (s.setPc t).v = s.v := rfl
@[simp] theorem State.setPc_pc (t : Word) : (s.setPc t).pc = t := rfl
@[simp] theorem State.setPc_ireg (t : Word) : (s.setPc t).ireg = s.ireg := rfl
@[simp] theorem State.setPc_sp (t : Word) : (s.setPc t).sp = s.sp := rfl
@[simp] theorem State.setPc_stack (t : Word) : (s.setPc t).stack = s.stack := rfl
@[simp] theorem State.setPc_dt (t : Word) : (s.setPc t).dt = s.dt := rfl
@[simp] theorem State.setPc_st (t : Word) : (s.setPc t).st = s.st := rfl
@[simp] theorem State.setPc_fb (t : Word) : (s.setPc t).fb = s.fb := rfl
@[simp] theorem State.setPc_key (t : Word) : (s.setPc t).key = s.key := rfl
@[simp] theorem State.setPc_mem (t : Word) : (s.setPc t).mem = s.mem := rfl
@[simp] theorem State.setPc_fault (t : Word) : (s.setPc t).fault = s.fault := rfl
@[simp] theorem State.setPc_fcnt (t : Word) : (s.setPc t).fcnt = s.fcnt := rfl
@[simp] theorem State.setPc_draws (t : Word) : (s.setPc t).draws = s.draws := rfl
@[simp] theorem State.setPc_frames (t : Word) : (s.setPc t).frames = s.frames := rfl
@[simp] theorem State.setPc_stopIn (t : Word) : (s.setPc t).stopIn = s.stopIn := rfl
@[simp] theorem State.setPc_stopped (t : Word) : (s.setPc t).stopped = s.stopped := rfl

/-! ## setI -/

@[simp] theorem State.setI_v (t : Word) : (s.setI t).v = s.v := rfl
@[simp] theorem State.setI_pc (t : Word) : (s.setI t).pc = s.pc := rfl
@[simp] theorem State.setI_ireg (t : Word) : (s.setI t).ireg = t := rfl
@[simp] theorem State.setI_sp (t : Word) : (s.setI t).sp = s.sp := rfl
@[simp] theorem State.setI_stack (t : Word) : (s.setI t).stack = s.stack := rfl
@[simp] theorem State.setI_dt (t : Word) : (s.setI t).dt = s.dt := rfl
@[simp] theorem State.setI_st (t : Word) : (s.setI t).st = s.st := rfl
@[simp] theorem State.setI_fb (t : Word) : (s.setI t).fb = s.fb := rfl
@[simp] theorem State.setI_key (t : Word) : (s.setI t).key = s.key := rfl
@[simp] theorem State.setI_mem (t : Word) : (s.setI t).mem = s.mem := rfl
@[simp] theorem State.setI_fault (t : Word) : (s.setI t).fault = s.fault := rfl
@[simp] theorem State.setI_fcnt (t : Word) : (s.setI t).fcnt = s.fcnt := rfl
@[simp] theorem State.setI_draws (t : Word) : (s.setI t).draws = s.draws := rfl
@[simp] theorem State.setI_frames (t : Word) : (s.setI t).frames = s.frames := rfl
@[simp] theorem State.setI_stopIn (t : Word) : (s.setI t).stopIn = s.stopIn := rfl
@[simp] theorem State.setI_stopped (t : Word) : (s.setI t).stopped = s.stopped := rfl

/-! ## setDT -/

@[simp] theorem State.setDT_v (b : Byte) : (s.setDT b).v = s.v := rfl
@[simp] theorem State.setDT_pc (b : Byte) : (s.setDT b).pc = s.pc := rfl
@[simp] theorem State.setDT_ireg (b : Byte) : (s.setDT b).ireg = s.ireg := rfl
@[simp] theorem State.setDT_sp (b : Byte) : (s.setDT b).sp = s.sp := rfl
@[simp] theorem State.setDT_stack (b : Byte) : (s.setDT b).stack = s.stack := rfl
@[simp] theorem State.setDT_dt (b : Byte) : (s.setDT b).dt = b := rfl
@[simp] theorem State.setDT_st (b : Byte) : (s.setDT b).st = s.st := rfl
@[simp] theorem State.setDT_fb (b : Byte) : (s.setDT b).fb = s.fb := rfl
@[simp] theorem State.setDT_key (b : Byte) : (s.setDT b).key = s.key := rfl
@[simp] theorem State.setDT_mem (b : Byte) : (s.setDT b).mem = s.mem := rfl
@[simp] theorem State.setDT_fault (b : Byte) : (s.setDT b).fault = s.fault := rfl
@[simp] theorem State.setDT_fcnt (b : Byte) : (s.setDT b).fcnt = s.fcnt := rfl
@[simp] theorem State.setDT_draws (b : Byte) : (s.setDT b).draws = s.draws := rfl
@[simp] theorem State.setDT_frames (b : Byte) : (s.setDT b).frames = s.frames := rfl
@[simp] theorem State.setDT_stopIn (b : Byte) : (s.setDT b).stopIn = s.stopIn := rfl
@[simp] theorem State.setDT_stopped (b : Byte) : (s.setDT b).stopped = s.stopped := rfl

/-! ## setST -/

@[simp] theorem State.setST_v (b : Byte) : (s.setST b).v = s.v := rfl
@[simp] theorem State.setST_pc (b : Byte) : (s.setST b).pc = s.pc := rfl
@[simp] theorem State.setST_ireg (b : Byte) : (s.setST b).ireg = s.ireg := rfl
@[simp] theorem State.setST_sp (b : Byte) : (s.setST b).sp = s.sp := rfl
@[simp] theorem State.setST_stack (b : Byte) : (s.setST b).stack = s.stack := rfl
@[simp] theorem State.setST_dt (b : Byte) : (s.setST b).dt = s.dt := rfl
@[simp] theorem State.setST_st (b : Byte) : (s.setST b).st = b := rfl
@[simp] theorem State.setST_fb (b : Byte) : (s.setST b).fb = s.fb := rfl
@[simp] theorem State.setST_key (b : Byte) : (s.setST b).key = s.key := rfl
@[simp] theorem State.setST_mem (b : Byte) : (s.setST b).mem = s.mem := rfl
@[simp] theorem State.setST_fault (b : Byte) : (s.setST b).fault = s.fault := rfl
@[simp] theorem State.setST_fcnt (b : Byte) : (s.setST b).fcnt = s.fcnt := rfl
@[simp] theorem State.setST_draws (b : Byte) : (s.setST b).draws = s.draws := rfl
@[simp] theorem State.setST_frames (b : Byte) : (s.setST b).frames = s.frames := rfl
@[simp] theorem State.setST_stopIn (b : Byte) : (s.setST b).stopIn = s.stopIn := rfl
@[simp] theorem State.setST_stopped (b : Byte) : (s.setST b).stopped = s.stopped := rfl

/-! ## setFb -/

@[simp] theorem State.setFb_v (f : FrameBuffer) : (s.setFb f).v = s.v := rfl
@[simp] theorem State.setFb_pc (f : FrameBuffer) : (s.setFb f).pc = s.pc := rfl
@[simp] theorem State.setFb_ireg (f : FrameBuffer) : (s.setFb f).ireg = s.ireg := rfl
@[simp] theorem State.setFb_sp (f : FrameBuffer) : (s.setFb f).sp = s.sp := rfl
@[simp] theorem State.setFb_stack (f : FrameBuffer) : (s.setFb f).stack = s.stack := rfl
@[simp] theorem State.setFb_dt (f : FrameBuffer) : (s.setFb f).dt = s.dt := rfl
@[simp] theorem State.setFb_st (f : FrameBuffer) : (s.setFb f).st = s.st := rfl
@[simp] theorem State.setFb_fb (f : FrameBuffer) : (s.setFb f).fb = f := rfl
@[simp] theorem State.setFb_key (f : FrameBuffer) : (s.setFb f).key = s.key := rfl
@[simp] theorem State.setFb_mem (f : FrameBuffer) : (s.setFb f).mem = s.mem := rfl
@[simp] theorem State.setFb_fault (f : FrameBuffer) : (s.setFb f).fault = s.fault := rfl
@[simp] theorem State.setFb_fcnt (f : FrameBuffer) : (s.setFb f).fcnt = s.fcnt := rfl
@[simp] theorem State.setFb_draws (f : FrameBuffer) : (s.setFb f).draws = s.draws := rfl
@[simp] theorem State.setFb_frames (f : FrameBuffer) : (s.setFb f).frames = s.frames := rfl
@[simp] theorem State.setFb_stopIn (f : FrameBuffer) : (s.setFb f).stopIn = s.stopIn := rfl
@[simp] theorem State.setFb_stopped (f : FrameBuffer) : (s.setFb f).stopped = s.stopped := rfl

/-! ## writeMem -/

@[simp] theorem State.writeMem_v (a : Nat) (b : Byte) : (s.writeMem a b).v = s.v := rfl
@[simp] theorem State.writeMem_pc (a : Nat) (b : Byte) : (s.writeMem a b).pc = s.pc := rfl
@[simp] theorem State.writeMem_ireg (a : Nat) (b : Byte) : (s.writeMem a b).ireg = s.ireg := rfl
@[simp] theorem State.writeMem_sp (a : Nat) (b : Byte) : (s.writeMem a b).sp = s.sp := rfl
@[simp] theorem State.writeMem_stack (a : Nat) (b : Byte) : (s.writeMem a b).stack = s.stack := rfl
@[simp] theorem State.writeMem_dt (a : Nat) (b : Byte) : (s.writeMem a b).dt = s.dt := rfl
@[simp] theorem State.writeMem_st (a : Nat) (b : Byte) : (s.writeMem a b).st = s.st := rfl
@[simp] theorem State.writeMem_fb (a : Nat) (b : Byte) : (s.writeMem a b).fb = s.fb := rfl
@[simp] theorem State.writeMem_key (a : Nat) (b : Byte) : (s.writeMem a b).key = s.key := rfl
@[simp] theorem State.writeMem_mem (a : Nat) (b : Byte) : (s.writeMem a b).mem = s.mem.write a b := rfl
@[simp] theorem State.writeMem_fault (a : Nat) (b : Byte) : (s.writeMem a b).fault = s.fault := rfl
@[simp] theorem State.writeMem_fcnt (a : Nat) (b : Byte) : (s.writeMem a b).fcnt = s.fcnt := rfl
@[simp] theorem State.writeMem_draws (a : Nat) (b : Byte) : (s.writeMem a b).draws = s.draws := rfl
@[simp] theorem State.writeMem_frames (a : Nat) (b : Byte) : (s.writeMem a b).frames = s.frames := rfl
@[simp] theorem State.writeMem_stopIn (a : Nat) (b : Byte) : (s.writeMem a b).stopIn = s.stopIn := rfl
@[simp] theorem State.writeMem_stopped (a : Nat) (b : Byte) : (s.writeMem a b).stopped = s.stopped := rfl

/-! ## driveStop -/

@[simp] theorem State.driveStop_v (l : Bool) : (s.driveStop l).v = s.v := rfl
@[simp] theorem State.driveStop_pc (l : Bool) : (s.driveStop l).pc = s.pc := rfl
@[simp] theorem State.driveStop_ireg (l : Bool) : (s.driveStop l).ireg = s.ireg := rfl
@[simp] theorem State.driveStop_sp (l : Bool) : (s.driveStop l).sp = s.sp := rfl
@[simp] theorem State.driveStop_stack (l : Bool) : (s.driveStop l).stack = s.stack := rfl
@[simp] theorem State.driveStop_dt (l : Bool) : (s.driveStop l).dt = s.dt := rfl
@[simp] theorem State.driveStop_st (l : Bool) : (s.driveStop l).st = s.st := rfl
@[simp] theorem State.driveStop_fb (l : Bool) : (s.driveStop l).fb = s.fb := rfl
@[simp] theorem State.driveStop_key (l : Bool) : (s.driveStop l).key = s.key := rfl
@[simp] theorem State.driveStop_mem (l : Bool) : (s.driveStop l).mem = s.mem := rfl
@[simp] theorem State.driveStop_fault (l : Bool) : (s.driveStop l).fault = s.fault := rfl
@[simp] theorem State.driveStop_fcnt (l : Bool) : (s.driveStop l).fcnt = s.fcnt := rfl
@[simp] theorem State.driveStop_draws (l : Bool) : (s.driveStop l).draws = s.draws := rfl
@[simp] theorem State.driveStop_frames (l : Bool) : (s.driveStop l).frames = s.frames := rfl
@[simp] theorem State.driveStop_stopIn (l : Bool) : (s.driveStop l).stopIn = l := rfl
@[simp] theorem State.driveStop_stopped (l : Bool) : (s.driveStop l).stopped = s.stopped := rfl

/-! ## Reads through the updates that leave what they read alone -/

@[simp] theorem State.readMem_setV (x : Reg) (b : Byte) (a : Nat) : (s.setV x b).readMem a = s.readMem a := rfl
@[simp] theorem State.getV_setPc (t : Word) (r : Reg) : (s.setPc t).getV r = s.getV r := rfl
@[simp] theorem State.readMem_setPc (t : Word) (a : Nat) : (s.setPc t).readMem a = s.readMem a := rfl
@[simp] theorem State.getV_setI (t : Word) (r : Reg) : (s.setI t).getV r = s.getV r := rfl
@[simp] theorem State.readMem_setI (t : Word) (a : Nat) : (s.setI t).readMem a = s.readMem a := rfl
@[simp] theorem State.getV_setDT (b : Byte) (r : Reg) : (s.setDT b).getV r = s.getV r := rfl
@[simp] theorem State.readMem_setDT (b : Byte) (a : Nat) : (s.setDT b).readMem a = s.readMem a := rfl
@[simp] theorem State.getV_setST (b : Byte) (r : Reg) : (s.setST b).getV r = s.getV r := rfl
@[simp] theorem State.readMem_setST (b : Byte) (a : Nat) : (s.setST b).readMem a = s.readMem a := rfl
@[simp] theorem State.getV_setFb (f : FrameBuffer) (r : Reg) : (s.setFb f).getV r = s.getV r := rfl
@[simp] theorem State.readMem_setFb (f : FrameBuffer) (a : Nat) : (s.setFb f).readMem a = s.readMem a := rfl
@[simp] theorem State.getV_writeMem (a : Nat) (b : Byte) (r : Reg) : (s.writeMem a b).getV r = s.getV r := rfl
@[simp] theorem State.getV_driveStop (l : Bool) (r : Reg) : (s.driveStop l).getV r = s.getV r := rfl
@[simp] theorem State.readMem_driveStop (l : Bool) (a : Nat) : (s.driveStop l).readMem a = s.readMem a := rfl

/-! ## Reads of a written register -/

theorem State.getV_setV (x r : Reg) (b : Byte) : (s.setV x b).getV r = if r = x then b else s.getV r := by
  simp only [State.getV, State.setV_v, Vector.getElem_set]
  by_cases h : r = x
  · simp [h]
  · have : ¬ x.val = r.val := fun e => h (Fin.ext e.symm)
    simp [h, this]

@[simp] theorem State.getV_setV_same (x : Reg) (b : Byte) : (s.setV x b).getV x = b := by simp [State.getV_setV]

@[simp] theorem State.getV_setV_other {x r : Reg} (h : r ≠ x) (b : Byte) : (s.setV x b).getV r = s.getV r := by
  simp [State.getV_setV, h]

/-- Two register files that read alike are the same. -/
theorem State.v_ext {s t : State} (h : ∀ r : Reg, t.getV r = s.getV r) : t.v = s.v := by
  apply Vector.ext
  intro k hk
  exact h ⟨k, hk⟩

/-! ## The step's own updates -/

@[simp] theorem State.advance_pc : s.advance.pc = s.pc + 2 := rfl
@[simp] theorem State.advance_v : s.advance.v = s.v := rfl
@[simp] theorem State.advance_ireg : s.advance.ireg = s.ireg := rfl
@[simp] theorem State.advance_sp : s.advance.sp = s.sp := rfl
@[simp] theorem State.advance_stack : s.advance.stack = s.stack := rfl
@[simp] theorem State.advance_dt : s.advance.dt = s.dt := rfl
@[simp] theorem State.advance_st : s.advance.st = s.st := rfl
@[simp] theorem State.advance_fb : s.advance.fb = s.fb := rfl
@[simp] theorem State.advance_key : s.advance.key = s.key := rfl
@[simp] theorem State.advance_mem : s.advance.mem = s.mem := rfl
@[simp] theorem State.advance_fault : s.advance.fault = s.fault := rfl
@[simp] theorem State.advance_fcnt : s.advance.fcnt = s.fcnt := rfl
@[simp] theorem State.advance_draws : s.advance.draws = s.draws := rfl
@[simp] theorem State.advance_frames : s.advance.frames = s.frames := rfl
@[simp] theorem State.advance_stopIn : s.advance.stopIn = s.stopIn := rfl
@[simp] theorem State.advance_stopped : s.advance.stopped = s.stopped := rfl
@[simp] theorem State.getV_advance (r : Reg) : s.advance.getV r = s.getV r := rfl
@[simp] theorem State.readMem_advance (a : Nat) : s.advance.readMem a = s.readMem a := rfl

@[simp] theorem State.drawRandom_byte : s.drawRandom.1 = Config.randomByte s.draws := rfl
@[simp] theorem State.drawRandom_v : s.drawRandom.2.v = s.v := rfl
@[simp] theorem State.drawRandom_pc : s.drawRandom.2.pc = s.pc := rfl
@[simp] theorem State.drawRandom_ireg : s.drawRandom.2.ireg = s.ireg := rfl
@[simp] theorem State.drawRandom_sp : s.drawRandom.2.sp = s.sp := rfl
@[simp] theorem State.drawRandom_stack : s.drawRandom.2.stack = s.stack := rfl
@[simp] theorem State.drawRandom_dt : s.drawRandom.2.dt = s.dt := rfl
@[simp] theorem State.drawRandom_st : s.drawRandom.2.st = s.st := rfl
@[simp] theorem State.drawRandom_fb : s.drawRandom.2.fb = s.fb := rfl
@[simp] theorem State.drawRandom_key : s.drawRandom.2.key = s.key := rfl
@[simp] theorem State.drawRandom_mem : s.drawRandom.2.mem = s.mem := rfl
@[simp] theorem State.drawRandom_fault : s.drawRandom.2.fault = s.fault := rfl
@[simp] theorem State.drawRandom_fcnt : s.drawRandom.2.fcnt = s.fcnt := rfl
@[simp] theorem State.drawRandom_draws : s.drawRandom.2.draws = s.draws + 1 := rfl
@[simp] theorem State.drawRandom_frames : s.drawRandom.2.frames = s.frames := rfl
@[simp] theorem State.drawRandom_stopIn : s.drawRandom.2.stopIn = s.stopIn := rfl
@[simp] theorem State.drawRandom_stopped : s.drawRandom.2.stopped = s.stopped := rfl
@[simp] theorem State.getV_drawRandom (r : Reg) : s.drawRandom.2.getV r = s.getV r := rfl
@[simp] theorem State.readMem_drawRandom (a : Nat) : s.drawRandom.2.readMem a = s.readMem a := rfl

@[simp] theorem State.finishStep_v : s.finishStep.v = s.v := rfl
@[simp] theorem State.finishStep_pc : s.finishStep.pc = s.pc := rfl
@[simp] theorem State.finishStep_ireg : s.finishStep.ireg = s.ireg := rfl
@[simp] theorem State.finishStep_sp : s.finishStep.sp = s.sp := rfl
@[simp] theorem State.finishStep_stack : s.finishStep.stack = s.stack := rfl
@[simp] theorem State.finishStep_fb : s.finishStep.fb = s.fb := rfl
@[simp] theorem State.finishStep_mem : s.finishStep.mem = s.mem := rfl
@[simp] theorem State.finishStep_fault : s.finishStep.fault = s.fault := rfl
@[simp] theorem State.finishStep_draws : s.finishStep.draws = s.draws := rfl
@[simp] theorem State.finishStep_stopIn : s.finishStep.stopIn = s.stopIn := rfl
@[simp] theorem State.getV_finishStep (r : Reg) : s.finishStep.getV r = s.getV r := rfl
@[simp] theorem State.readMem_finishStep (a : Nat) : s.finishStep.readMem a = s.readMem a := rfl

@[simp] theorem State.skipIf_v (c : Bool) : (s.skipIf c).v = s.v := by cases c <;> rfl
@[simp] theorem State.skipIf_ireg (c : Bool) : (s.skipIf c).ireg = s.ireg := by cases c <;> rfl
@[simp] theorem State.skipIf_sp (c : Bool) : (s.skipIf c).sp = s.sp := by cases c <;> rfl
@[simp] theorem State.skipIf_stack (c : Bool) : (s.skipIf c).stack = s.stack := by cases c <;> rfl
@[simp] theorem State.skipIf_dt (c : Bool) : (s.skipIf c).dt = s.dt := by cases c <;> rfl
@[simp] theorem State.skipIf_st (c : Bool) : (s.skipIf c).st = s.st := by cases c <;> rfl
@[simp] theorem State.skipIf_fb (c : Bool) : (s.skipIf c).fb = s.fb := by cases c <;> rfl
@[simp] theorem State.skipIf_key (c : Bool) : (s.skipIf c).key = s.key := by cases c <;> rfl
@[simp] theorem State.skipIf_mem (c : Bool) : (s.skipIf c).mem = s.mem := by cases c <;> rfl
@[simp] theorem State.skipIf_fault (c : Bool) : (s.skipIf c).fault = s.fault := by cases c <;> rfl
@[simp] theorem State.skipIf_fcnt (c : Bool) : (s.skipIf c).fcnt = s.fcnt := by cases c <;> rfl
@[simp] theorem State.skipIf_draws (c : Bool) : (s.skipIf c).draws = s.draws := by cases c <;> rfl
@[simp] theorem State.skipIf_frames (c : Bool) : (s.skipIf c).frames = s.frames := by cases c <;> rfl
@[simp] theorem State.skipIf_stopIn (c : Bool) : (s.skipIf c).stopIn = s.stopIn := by cases c <;> rfl
@[simp] theorem State.skipIf_stopped (c : Bool) : (s.skipIf c).stopped = s.stopped := by cases c <;> rfl
@[simp] theorem State.skipIf_pc (c : Bool) : (s.skipIf c).pc = if c then s.pc + 2 else s.pc := by cases c <;> rfl
@[simp] theorem State.getV_skipIf (c : Bool) (r : Reg) : (s.skipIf c).getV r = s.getV r := by cases c <;> rfl
@[simp] theorem State.readMem_skipIf (c : Bool) (a : Nat) : (s.skipIf c).readMem a = s.readMem a := by
  cases c <;> rfl

end Sys2Proof.Machine
end

