-- ==== Sys2Proof/Laws/Display.lean ====
section
/-! SUPPORT. Pixels: what one set, one sprite row and a whole sprite do to each pixel and to the collision. -/

namespace Sys2Proof.Machine

theorem fbPixel_inside (f : FrameBuffer) {cx cy : Nat} (hx : cx < 64) (hy : cy < 32) : fbPixel f cx cy = f[cy][cx] := by
  simp [fbPixel, hx, hy]

/-- Two framebuffers with the same pixels inside the grid are the same. -/
theorem fb_ext {f g : FrameBuffer} (h : ∀ cx < 64, ∀ cy < 32, fbPixel f cx cy = fbPixel g cx cy) : f = g := by
  apply Vector.ext
  intro cy hy
  apply Vector.ext
  intro cx hx
  have := h cx hx cy hy
  rwa [fbPixel_inside f hx hy, fbPixel_inside g hx hy] at this

theorem fbPixel_fbSet (f : FrameBuffer) {cx cy : Nat} (hx : cx < 64) (hy : cy < 32) (b : Bool) (px py : Nat) :
    fbPixel (fbSet f cx cy b) px py = if px = cx ∧ py = cy then b else fbPixel f px py := by
  by_cases hpy : py < 32
  · by_cases hpx : px < 64
    · by_cases hy' : cy = py
      · by_cases hx' : cx = px
        · subst hy' hx'
          simp [fbPixel, fbSet, hx, hy]
        · subst hy'
          have : ¬ (px = cx) := fun e => hx' e.symm
          simp [fbPixel, fbSet, hx, hy, hpx, this, hx']
      · have : ¬ (py = cy) := fun e => hy' e.symm
        simp [fbPixel, fbSet, hx, hy, hpx, hpy, this, hy']
    · have : ¬ (px = cx) := by omega
      simp [fbPixel, hpx, this]
  · have : ¬ (py = cy) := by omega
    simp [fbPixel, hpy, this]

@[simp] theorem fbPixel_fbClear (px py : Nat) : fbPixel fbClear px py = false := by
  simp [fbPixel, fbClear]

theorem fbPixel_fbFlip {cx cy : Nat} (hx : cx < 64) (hy : cy < 32) (acc : FrameBuffer × Bool) (px py : Nat) :
    fbPixel (fbFlip cx cy acc).1 px py =
      if px = cx ∧ py = cy then !fbPixel acc.1 px py else fbPixel acc.1 px py := by
  by_cases h : fbPixel acc.1 cx cy
  · by_cases hp : px = cx ∧ py = cy
    · simp [fbFlip, h, fbPixel_fbSet _ hx hy, hp]
    · simp [fbFlip, h, fbPixel_fbSet _ hx hy, hp]
  · by_cases hp : px = cx ∧ py = cy
    · simp [fbFlip, h, fbPixel_fbSet _ hx hy, hp]
    · simp [fbFlip, h, fbPixel_fbSet _ hx hy, hp]

theorem hit_fbFlip (cx cy : Nat) (acc : FrameBuffer × Bool) :
    (fbFlip cx cy acc).2 = (acc.2 || fbPixel acc.1 cx cy) := by
  by_cases h : fbPixel acc.1 cx cy <;> simp [fbFlip, h]

/-- One sprite row: the pixels from column `cx` on, as many as bits are left and the grid has, are exclusive-ored with
the bits; the rest stay. -/
theorem fbPixel_drawBits (b : Byte) {cy : Nat} (hy : cy < 32) (left cx : Nat) (acc : FrameBuffer × Bool) (px py : Nat) :
    fbPixel (drawBits b cy left cx acc).1 px py =
      if py = cy ∧ cx ≤ px ∧ px < cx + left ∧ px < 64 then
        Bool.xor (fbPixel acc.1 px py) (b.getLsbD (left - 1 - (px - cx)))
      else fbPixel acc.1 px py := by
  induction left generalizing cx acc with
  | zero =>
    have : ¬ (py = cy ∧ cx ≤ px ∧ px < cx + 0 ∧ px < 64) := by omega
    rw [if_neg this]; rfl
  | succ left ih =>
    by_cases hx : 63 < cx
    · have : ¬ (py = cy ∧ cx ≤ px ∧ px < cx + (left + 1) ∧ px < 64) := by omega
      simp [drawBits, hx, this]
    · have hx' : cx < 64 := by omega
      have hd : drawBits b cy (left + 1) cx acc =
          drawBits b cy left (cx + 1) (if b.getLsbD left then fbFlip cx cy acc else acc) := by
        simp [drawBits, hx]
      rw [hd, ih]
      by_cases hp : px = cx ∧ py = cy
      · obtain ⟨rfl, rfl⟩ := hp
        have h1 : ¬ (py = py ∧ px + 1 ≤ px ∧ px < px + 1 + left ∧ px < 64) := by omega
        have h2 : py = py ∧ px ≤ px ∧ px < px + (left + 1) ∧ px < 64 := by omega
        rw [if_neg h1, if_pos h2]
        have h3 : left + 1 - 1 - (px - px) = left := by omega
        rw [h3]
        by_cases hb : b.getLsbD left
        · simp [hb, fbPixel_fbFlip hx' hy]
        · simp [hb]
      · have hsame : fbPixel (if b.getLsbD left then fbFlip cx cy acc else acc).1 px py = fbPixel acc.1 px py := by
          by_cases hb : b.getLsbD left <;> simp [hb, fbPixel_fbFlip hx' hy, hp]
        rw [hsame]
        by_cases h1 : py = cy ∧ cx + 1 ≤ px ∧ px < cx + 1 + left ∧ px < 64
        · have h2 : py = cy ∧ cx ≤ px ∧ px < cx + (left + 1) ∧ px < 64 := by omega
          have h3 : left + 1 - 1 - (px - cx) = left - 1 - (px - (cx + 1)) := by omega
          rw [if_pos h1, if_pos h2, h3]
        · have h2 : ¬ (py = cy ∧ cx ≤ px ∧ px < cx + (left + 1) ∧ px < 64) := by omega
          rw [if_neg h1, if_neg h2]

/-- One sprite row collides where a set bit meets a lit pixel. -/
theorem hit_drawBits (b : Byte) {cy : Nat} (hy : cy < 32) (left cx : Nat) (acc : FrameBuffer × Bool) :
    (drawBits b cy left cx acc).2 = true ↔ acc.2 = true ∨ ∃ px, cx ≤ px ∧ px < cx + left ∧ px < 64 ∧
      b.getLsbD (left - 1 - (px - cx)) = true ∧ fbPixel acc.1 px cy = true := by
  induction left generalizing cx acc with
  | zero =>
    constructor
    · exact fun h => .inl h
    · rintro (h | ⟨px, h1, h2, _⟩)
      · exact h
      · omega
  | succ left ih =>
    by_cases hx : 63 < cx
    · have hd : drawBits b cy (left + 1) cx acc = acc := by simp [drawBits, hx]
      rw [hd]
      constructor
      · exact fun h => .inl h
      · rintro (h | ⟨px, h1, h2, h3, _⟩)
        · exact h
        · omega
    · have hx' : cx < 64 := by omega
      have hd : drawBits b cy (left + 1) cx acc =
          drawBits b cy left (cx + 1) (if b.getLsbD left then fbFlip cx cy acc else acc) := by
        simp [drawBits, hx]
      have hpix : ∀ px, px ≠ cx → fbPixel (if b.getLsbD left then fbFlip cx cy acc else acc).1 px cy =
          fbPixel acc.1 px cy := by
        intro px hne
        by_cases hb : b.getLsbD left <;> simp [hb, fbPixel_fbFlip hx' hy, hne]
      have hhit : (if b.getLsbD left then fbFlip cx cy acc else acc).2 = true ↔
          acc.2 = true ∨ (b.getLsbD left = true ∧ fbPixel acc.1 cx cy = true) := by
        by_cases hb : b.getLsbD left <;> simp [hb, hit_fbFlip]
      rw [hd, ih, hhit]
      constructor
      · rintro ((h | ⟨hb, hl⟩) | ⟨px, h1, h2, h3, h4, h5⟩)
        · exact .inl h
        · refine .inr ⟨cx, le_refl _, by omega, hx', ?_, hl⟩
          have : left + 1 - 1 - (cx - cx) = left := by omega
          rwa [this]
        · refine .inr ⟨px, by omega, by omega, h3, ?_, ?_⟩
          · have : left + 1 - 1 - (px - cx) = left - 1 - (px - (cx + 1)) := by omega
            rwa [this]
          · rwa [hpix px (by omega)] at h5
      · rintro (h | ⟨px, h1, h2, h3, h4, h5⟩)
        · exact .inl (.inl h)
        · by_cases he : px = cx
          · subst he
            have : left + 1 - 1 - (px - px) = left := by omega
            rw [this] at h4
            exact .inl (.inr ⟨h4, h5⟩)
          · refine .inr ⟨px, by omega, by omega, h3, ?_, ?_⟩
            · have : left + 1 - 1 - (px - cx) = left - 1 - (px - (cx + 1)) := by omega
              rwa [this] at h4
            · rwa [hpix px he]

/-- A sprite: inside the clipped rectangle the pixels are exclusive-ored with the sprite's bits; the rest stay. -/
theorem fbPixel_drawRows (s : State) (x0 left row cy : Nat) (acc : FrameBuffer × Bool) (px py : Nat) (hpy : py < 32) :
    fbPixel (drawRows s x0 left row cy acc).1 px py =
      if cy ≤ py ∧ py < cy + left ∧ x0 ≤ px ∧ px < x0 + 8 ∧ px < 64 then
        Bool.xor (fbPixel acc.1 px py) ((s.readMem (s.effAddr (row + (py - cy)))).getLsbD (7 - (px - x0)))
      else fbPixel acc.1 px py := by
  induction left generalizing row cy acc with
  | zero =>
    have : ¬ (cy ≤ py ∧ py < cy + 0 ∧ x0 ≤ px ∧ px < x0 + 8 ∧ px < 64) := by omega
    rw [if_neg this]; rfl
  | succ left ih =>
    by_cases hc : 31 < cy
    · have : ¬ (cy ≤ py ∧ py < cy + (left + 1) ∧ x0 ≤ px ∧ px < x0 + 8 ∧ px < 64) := by omega
      simp [drawRows, hc, this]
    · have hc' : cy < 32 := by omega
      have hd : drawRows s x0 (left + 1) row cy acc =
          drawRows s x0 left (row + 1) (cy + 1) (drawBits (s.readMem (s.effAddr row)) cy 8 x0 acc) := by
        simp [drawRows, hc]
      rw [hd, ih, fbPixel_drawBits _ hc']
      by_cases he : py = cy
      · subst he
        have h1 : ¬ (py + 1 ≤ py ∧ py < py + 1 + left ∧ x0 ≤ px ∧ px < x0 + 8 ∧ px < 64) := by omega
        rw [if_neg h1]
        by_cases h2 : x0 ≤ px ∧ px < x0 + 8 ∧ px < 64
        · have h3 : py ≤ py ∧ py < py + (left + 1) ∧ x0 ≤ px ∧ px < x0 + 8 ∧ px < 64 := by omega
          simp [h2]
        · have h3 : ¬ (py ≤ py ∧ py < py + (left + 1) ∧ x0 ≤ px ∧ px < x0 + 8 ∧ px < 64) := by omega
          have h4 : ¬ (py = py ∧ x0 ≤ px ∧ px < x0 + 8 ∧ px < 64) := by omega
          rw [if_neg h3, if_neg h4]
      · have h4 : ¬ (py = cy ∧ x0 ≤ px ∧ px < x0 + 8 ∧ px < 64) := by omega
        rw [if_neg h4]
        by_cases h1 : cy + 1 ≤ py ∧ py < cy + 1 + left ∧ x0 ≤ px ∧ px < x0 + 8 ∧ px < 64
        · have h2 : cy ≤ py ∧ py < cy + (left + 1) ∧ x0 ≤ px ∧ px < x0 + 8 ∧ px < 64 := by omega
          have h3 : row + 1 + (py - (cy + 1)) = row + (py - cy) := by omega
          rw [if_pos h1, if_pos h2, h3]
        · have h2 : ¬ (cy ≤ py ∧ py < cy + (left + 1) ∧ x0 ≤ px ∧ px < x0 + 8 ∧ px < 64) := by omega
          rw [if_neg h1, if_neg h2]

/-- A sprite collides where, inside the clipped rectangle, a set bit meets a lit pixel. -/
theorem hit_drawRows (s : State) (x0 left row cy : Nat) (acc : FrameBuffer × Bool) :
    (drawRows s x0 left row cy acc).2 = true ↔ acc.2 = true ∨ ∃ px py, cy ≤ py ∧ py < cy + left ∧ py < 32 ∧
      x0 ≤ px ∧ px < x0 + 8 ∧ px < 64 ∧
      (s.readMem (s.effAddr (row + (py - cy)))).getLsbD (7 - (px - x0)) = true ∧ fbPixel acc.1 px py = true := by
  induction left generalizing row cy acc with
  | zero =>
    constructor
    · exact fun h => .inl h
    · rintro (h | ⟨px, py, h1, h2, _⟩)
      · exact h
      · omega
  | succ left ih =>
    by_cases hc : 31 < cy
    · have hd : drawRows s x0 (left + 1) row cy acc = acc := by simp [drawRows, hc]
      rw [hd]
      constructor
      · exact fun h => .inl h
      · rintro (h | ⟨px, py, h1, h2, h3, _⟩)
        · exact h
        · omega
    · have hc' : cy < 32 := by omega
      have hd : drawRows s x0 (left + 1) row cy acc =
          drawRows s x0 left (row + 1) (cy + 1) (drawBits (s.readMem (s.effAddr row)) cy 8 x0 acc) := by
        simp [drawRows, hc]
      have hpix : ∀ px py, py ≠ cy → fbPixel (drawBits (s.readMem (s.effAddr row)) cy 8 x0 acc).1 px py =
          fbPixel acc.1 px py := by
        intro px py hne
        rw [fbPixel_drawBits _ hc', if_neg (by omega)]
      rw [hd, ih, hit_drawBits _ hc']
      constructor
      · rintro ((h | ⟨px, h1, h2, h3, h4, h5⟩) | ⟨px, py, h1, h2, h3, h4, h5, h6, h7, h8⟩)
        · exact .inl h
        · refine .inr ⟨px, cy, by omega, by omega, hc', h1, h2, h3, ?_, h5⟩
          have : row + (cy - cy) = row := by omega
          rwa [this]
        · refine .inr ⟨px, py, by omega, by omega, h3, h4, h5, h6, ?_, ?_⟩
          · have : row + 1 + (py - (cy + 1)) = row + (py - cy) := by omega
            rwa [this] at h7
          · rwa [hpix px py (by omega)] at h8
      · rintro (h | ⟨px, py, h1, h2, h3, h4, h5, h6, h7, h8⟩)
        · exact .inl (.inl h)
        · by_cases he : py = cy
          · subst he
            have : row + (py - py) = row := by omega
            rw [this] at h7
            exact .inl (.inr ⟨px, h4, h5, h6, h7, h8⟩)
          · refine .inr ⟨px, py, by omega, by omega, h3, h4, h5, h6, ?_, ?_⟩
            · have : row + 1 + (py - (cy + 1)) = row + (py - cy) := by omega
              rwa [this]
            · rwa [hpix px py he]

end Sys2Proof.Machine
end

