-- ==== Sys2Proof/Laws/Encoding.lean ====
section
/-! SUPPORT. The fields of a word built by each format of rule R92, and a word put together again from its fields. Both
go through the numbers the words stand for. -/

namespace Sys2Proof

theorem toNat_append_eq {m n : Nat} (a : BitVec m) (b : BitVec n) :
    (a ++ b).toNat = a.toNat * 2 ^ n + b.toNat := by
  rw [BitVec.toNat_append, ← Nat.shiftLeft_add_eq_or_of_lt b.isLt, Nat.shiftLeft_eq]

theorem toNat_encAddr (t : BitVec 4) (a : Addr) : (encAddr t a).toNat = t.toNat * 4096 + a.toNat :=
  toNat_append_eq t a

theorem toNat_encXNN (t : BitVec 4) (x : Reg) (nn : Byte) :
    (encXNN t x nn).toNat = t.toNat * 4096 + x.val * 256 + nn.toNat := by
  have h1 : (encXNN t x nn).toNat = t.toNat * 4096 + (BitVec.ofFin (w := 4) x ++ nn).toNat :=
    toNat_append_eq t (BitVec.ofFin (w := 4) x ++ nn)
  have h2 : (BitVec.ofFin (w := 4) x ++ nn).toNat = x.val * 256 + nn.toNat :=
    toNat_append_eq (BitVec.ofFin (w := 4) x) nn
  rw [h1, h2, Nat.add_assoc]

theorem toNat_encXYN (t : BitVec 4) (x y : Reg) (n : Fin 16) :
    (encXYN t x y n).toNat = t.toNat * 4096 + x.val * 256 + (y.val * 16 + n.val) := by
  have h2 : (BitVec.ofFin (w := 4) y ++ BitVec.ofFin (w := 4) n).toNat = y.val * 16 + n.val :=
    toNat_append_eq (BitVec.ofFin (w := 4) y) (BitVec.ofFin (w := 4) n)
  rw [← h2]
  exact toNat_encXNN t x _

theorem toNat_opTop (op : Word) : (opTop op).toNat = op.toNat / 4096 := by
  have := op.isLt
  simp only [opTop, BitVec.extractLsb'_toNat, Nat.shiftRight_eq_div_pow]
  omega

theorem val_opX (op : Word) : (opX op).val = op.toNat / 256 % 16 := by
  simp only [opX, BitVec.extractLsb', BitVec.toFin_ofNat, Fin.val_ofNat, Nat.shiftRight_eq_div_pow]

theorem val_opY (op : Word) : (opY op).val = op.toNat / 16 % 16 := by
  simp only [opY, BitVec.extractLsb', BitVec.toFin_ofNat, Fin.val_ofNat, Nat.shiftRight_eq_div_pow]

theorem val_opN (op : Word) : (opN op).val = op.toNat % 16 := by
  simp only [opN, BitVec.extractLsb', BitVec.toFin_ofNat, Fin.val_ofNat, Nat.shiftRight_zero]

theorem toNat_opNN (op : Word) : (opNN op).toNat = op.toNat % 256 := by
  simp only [opNN, BitVec.extractLsb'_toNat, Nat.shiftRight_eq_div_pow]
  omega

theorem toNat_opAddr (op : Word) : (opAddr op).toNat = op.toNat % 4096 := by
  simp only [opAddr, BitVec.extractLsb'_toNat, Nat.shiftRight_eq_div_pow]
  omega

section fields

variable (t : BitVec 4) (a : Addr) (x y : Reg) (nn : Byte) (n : Fin 16)

@[simp] theorem opTop_encAddr : opTop (encAddr t a) = t := by
  apply BitVec.eq_of_toNat_eq; rw [toNat_opTop, toNat_encAddr]; have := a.isLt; omega

@[simp] theorem opAddr_encAddr : opAddr (encAddr t a) = a := by
  apply BitVec.eq_of_toNat_eq; rw [toNat_opAddr, toNat_encAddr]; have := a.isLt; omega

@[simp] theorem opTop_encXNN : opTop (encXNN t x nn) = t := by
  apply BitVec.eq_of_toNat_eq; rw [toNat_opTop, toNat_encXNN]; have := x.isLt; have := nn.isLt; omega

@[simp] theorem opX_encXNN : opX (encXNN t x nn) = x := by
  apply Fin.ext; rw [val_opX, toNat_encXNN]; have := x.isLt; have := nn.isLt; omega

@[simp] theorem opNN_encXNN : opNN (encXNN t x nn) = nn := by
  apply BitVec.eq_of_toNat_eq; rw [toNat_opNN, toNat_encXNN]; have := nn.isLt; omega

@[simp] theorem opTop_encXYN : opTop (encXYN t x y n) = t := by simp [encXYN]

@[simp] theorem opX_encXYN : opX (encXYN t x y n) = x := by simp [encXYN]

@[simp] theorem opY_encXYN : opY (encXYN t x y n) = y := by
  apply Fin.ext; rw [val_opY, toNat_encXYN]; have := y.isLt; have := n.isLt; omega

@[simp] theorem opN_encXYN : opN (encXYN t x y n) = n := by
  apply Fin.ext; rw [val_opN, toNat_encXYN]; have := n.isLt; omega

end fields

section words

variable (op : Word)

/-- A word is its top digit and its `addr` field. -/
theorem encAddr_fields : encAddr (opTop op) (opAddr op) = op := by
  apply BitVec.eq_of_toNat_eq; rw [toNat_encAddr, toNat_opTop, toNat_opAddr]; omega

/-- A word is its top digit, its `x` field and its `nn` field. -/
theorem encXNN_fields : encXNN (opTop op) (opX op) (opNN op) = op := by
  apply BitVec.eq_of_toNat_eq; rw [toNat_encXNN, toNat_opTop, val_opX, toNat_opNN]; have := op.isLt; omega

/-- A word is its four digits. -/
theorem encXYN_fields : encXYN (opTop op) (opX op) (opY op) (opN op) = op := by
  apply BitVec.eq_of_toNat_eq; rw [toNat_encXYN, toNat_opTop, val_opX, val_opY, val_opN]; have := op.isLt; omega

/-- The two bytes of a word, in memory order, are the word (R62). -/
@[simp] theorem wordOfBytes_hi_lo : wordOfBytes (hiByte op) (loByte op) = op := by
  apply BitVec.eq_of_toNat_eq
  have h : (wordOfBytes (hiByte op) (loByte op)).toNat = (hiByte op).toNat * 256 + (loByte op).toNat :=
    toNat_append_eq (hiByte op) (loByte op)
  have := op.isLt
  rw [h]
  simp only [hiByte, loByte, BitVec.extractLsb'_toNat, Nat.shiftRight_eq_div_pow]
  omega

end words

section masks

variable (t : BitVec 4) (x : Reg) (nn : Byte)

theorem getLsbD_encXNN (k : Nat) : (encXNN t x nn).getLsbD k =
    if k < 8 then nn.getLsbD k else if k < 12 then (BitVec.ofFin (w := 4) x).getLsbD (k - 8)
    else t.getLsbD (k - 12) := by
  have h1 : (encXNN t x nn).getLsbD k =
      if k < 12 then (BitVec.ofFin (w := 4) x ++ nn).getLsbD k else t.getLsbD (k - 12) :=
    BitVec.getLsbD_append ..
  have h2 : (BitVec.ofFin (w := 4) x ++ nn).getLsbD k =
      if k < 8 then nn.getLsbD k else (BitVec.ofFin (w := 4) x).getLsbD (k - 8) :=
    BitVec.getLsbD_append ..
  rw [h1, h2]
  split_ifs <;> first | rfl | omega

theorem getLsbD_word (op : Word) (k : Nat) : op.getLsbD k =
    if k < 8 then (opNN op).getLsbD k else if k < 12 then (BitVec.ofFin (w := 4) (opX op)).getLsbD (k - 8)
    else (opTop op).getLsbD (k - 12) := by
  rw [← getLsbD_encXNN, encXNN_fields]

/-- Under the mask of a one-digit pattern the top digit is left (R96). -/
theorem and_F000 (op : Word) : op &&& 0xF000 = encXNN (opTop op) 0 0 := by
  apply BitVec.eq_of_getLsbD_eq
  intro k hk
  rw [BitVec.getLsbD_and, getLsbD_encXNN, getLsbD_word op k]
  interval_cases k <;> simp

/-- Under the mask of an X_FF pattern the top digit and the second byte are left (R96). -/
theorem and_F0FF (op : Word) : op &&& 0xF0FF = encXNN (opTop op) 0 (opNN op) := by
  apply BitVec.eq_of_getLsbD_eq
  intro k hk
  rw [BitVec.getLsbD_and, getLsbD_encXNN, getLsbD_word op k]
  interval_cases k <;> simp

/-- Under the mask of an X_Y_F pattern the top digit and the last digit are left (R96). -/
theorem and_F00F (op : Word) : op &&& 0xF00F = encXNN (opTop op) 0 (opNN op &&& 0x0F) := by
  apply BitVec.eq_of_getLsbD_eq
  intro k hk
  rw [BitVec.getLsbD_and, getLsbD_encXNN, getLsbD_word op k]
  interval_cases k <;> simp

/-- The last digit, seen as a masked byte. -/
theorem toNat_opNN_and (op : Word) : (opNN op &&& 0x0F).toNat = (opN op).val := by
  have h : (opNN op &&& 0x0F).toNat = (opNN op).toNat &&& (2 ^ 4 - 1) := by simp
  rw [h, Nat.and_two_pow_sub_one_eq_mod, toNat_opNN, val_opN]
  omega

theorem encXNN_inj {t t' : BitVec 4} {x x' : Reg} {nn nn' : Byte} (h : encXNN t x nn = encXNN t' x' nn') :
    t = t' ∧ x = x' ∧ nn = nn' :=
  ⟨by simpa using congrArg opTop h, by simpa using congrArg opX h, by simpa using congrArg opNN h⟩

/-- A word matches a one-digit pattern exactly when its top digit is the pattern's. -/
theorem hit_F000 (w p : Word) (top : Nat) (hp : p &&& 0xF000 = p ∧ (opTop p).toNat = top) :
    w &&& 0xF000 = p ↔ (opTop w).toNat = top := by
  rw [← hp.1, ← hp.2, and_F000, and_F000]
  exact ⟨fun h => by rw [(encXNN_inj h).1], fun h => by rw [BitVec.eq_of_toNat_eq h]⟩

/-- A word matches an X_FF pattern exactly when its top digit and its second byte are the pattern's. -/
theorem hit_F0FF (w p : Word) (top : Nat) (nn : Byte)
    (hp : p &&& 0xF0FF = p ∧ (opTop p).toNat = top ∧ opNN p = nn) :
    w &&& 0xF0FF = p ↔ (opTop w).toNat = top ∧ opNN w = nn := by
  rw [← hp.1, ← hp.2.1, ← hp.2.2, and_F0FF, and_F0FF]
  exact ⟨fun h => ⟨by rw [(encXNN_inj h).1], (encXNN_inj h).2.2⟩, fun h => by rw [BitVec.eq_of_toNat_eq h.1, h.2]⟩

/-- A word matches an X_Y_F pattern exactly when its top digit and its last digit are the pattern's. -/
theorem hit_F00F (w p : Word) (top n : Nat)
    (hp : p &&& 0xF00F = p ∧ (opTop p).toNat = top ∧ (opN p).val = n) :
    w &&& 0xF00F = p ↔ (opTop w).toNat = top ∧ (opN w).val = n := by
  have hw : w &&& 0xF00F = p ↔ encXNN (opTop w) 0 (opNN w &&& 0x0F) = encXNN (opTop p) 0 (opNN p &&& 0x0F) := by
    rw [← and_F00F, ← and_F00F, hp.1]
  rw [hw, ← hp.2.1, ← hp.2.2, ← toNat_opNN_and, ← toNat_opNN_and]
  exact ⟨fun h => ⟨by rw [(encXNN_inj h).1], by rw [(encXNN_inj h).2.2]⟩,
    fun h => by rw [BitVec.eq_of_toNat_eq h.1, BitVec.eq_of_toNat_eq h.2]⟩

/-- A whole-word pattern (R95). -/
theorem hit_FFFF (w p : Word) : w &&& 0xFFFF = p ↔ w = p := by
  have h : w &&& 0xFFFF = w := by
    rw [← encXNN_fields w]
    apply BitVec.eq_of_getLsbD_eq
    intro k hk
    rw [BitVec.getLsbD_and]
    interval_cases k <;> simp
  rw [h]

end masks

end Sys2Proof
end

