-- ==== Sys2Proof/Laws/Memory.lean ====
section
/-! SUPPORT. The laws of memory: a read after a write, and that every write keeps the canonical form. -/

namespace Sys2Proof.Machine

theorem Memory.cellOf_lt (a : Nat) : Memory.cellOf a < 4096 := Nat.mod_lt _ (by decide)

@[simp] theorem Memory.lookup_erase_same (m : Memory) (a : Nat) : (m.erase a).lookup a = none := by
  induction m with
  | nil => rfl
  | cons c m ih =>
    obtain ⟨b, w⟩ := c
    by_cases h : b = a <;> simp [Memory.erase, Memory.lookup, h, ih]

theorem Memory.lookup_erase_other (m : Memory) {a b : Nat} (h : b ≠ a) : (m.erase a).lookup b = m.lookup b := by
  induction m with
  | nil => rfl
  | cons c m ih =>
    obtain ⟨d, w⟩ := c
    by_cases hd : d = a
    · simp [Memory.erase, Memory.lookup, hd, ih, Ne.symm h]
    · simp [Memory.erase, Memory.lookup, hd, ih]

theorem Memory.lookup_insert_same (m : Memory) (a : Nat) (w : Byte) (h : m.lookup a = none) :
    (m.insert a w).lookup a = some w := by
  induction m with
  | nil => simp [Memory.insert, Memory.lookup]
  | cons c m ih =>
    obtain ⟨b, u⟩ := c
    by_cases hb : b = a
    · simp [Memory.lookup, hb] at h
    · simp only [Memory.lookup, hb, if_false] at h
      by_cases hlt : a < b <;> simp [Memory.insert, Memory.lookup, hlt, hb, ih h]

theorem Memory.lookup_insert_other (m : Memory) {a b : Nat} (w : Byte) (h : b ≠ a) :
    (m.insert a w).lookup b = m.lookup b := by
  induction m with
  | nil => simp [Memory.insert, Memory.lookup, Ne.symm h]
  | cons c m ih =>
    obtain ⟨d, u⟩ := c
    by_cases hlt : a < d <;> simp [Memory.insert, Memory.lookup, hlt, ih, Ne.symm h]

/-- A read after a write: the written cell gives the written byte, every other cell what it gave before. It needs no
canonical form. -/
theorem Memory.read_write (m : Memory) (a b : Nat) (w : Byte) :
    (m.write a w).read b = if Memory.cellOf b = Memory.cellOf a then w else m.read b := by
  by_cases h : Memory.cellOf b = Memory.cellOf a
  · by_cases hw : w = Memory.unlisted (Memory.cellOf a)
    · simp [Memory.read, Memory.write, h, ← hw]
    · simp [Memory.read, Memory.write, h, hw, Memory.lookup_insert_same]
  · by_cases hw : w = Memory.unlisted (Memory.cellOf a)
    · simp [Memory.read, Memory.write, h, ← hw, Memory.lookup_erase_other _ h]
    · simp [Memory.read, Memory.write, h, hw, Memory.lookup_insert_other _ _ h, Memory.lookup_erase_other _ h]

theorem Memory.wfFrom_mono {lo lo' : Nat} {m : Memory} (h : Memory.wfFrom lo m = true) (hl : lo' ≤ lo) :
    Memory.wfFrom lo' m = true := by
  cases m with
  | nil => rfl
  | cons c m =>
    obtain ⟨a, w⟩ := c
    simp only [Memory.wfFrom, Bool.and_eq_true, decide_eq_true_eq] at h ⊢
    exact ⟨⟨⟨by omega, h.1.1.2⟩, h.1.2⟩, h.2⟩

theorem Memory.wfFrom_erase {lo : Nat} {m : Memory} (a : Nat) (h : Memory.wfFrom lo m = true) :
    Memory.wfFrom lo (m.erase a) = true := by
  induction m generalizing lo with
  | nil => rfl
  | cons c m ih =>
    obtain ⟨b, w⟩ := c
    simp only [Memory.wfFrom, Bool.and_eq_true, decide_eq_true_eq] at h
    by_cases hb : b = a
    · simp only [Memory.erase, hb, if_true]
      exact ih (Memory.wfFrom_mono h.2 (by omega))
    · simp only [Memory.erase, hb, if_false, Memory.wfFrom, Bool.and_eq_true, decide_eq_true_eq]
      exact ⟨h.1, ih h.2⟩

theorem Memory.wfFrom_insert {lo a : Nat} {m : Memory} {w : Byte} (h : Memory.wfFrom lo m = true)
    (hn : m.lookup a = none) (hlo : lo ≤ a) (ha : a < 4096) (hw : w ≠ Memory.unlisted a) :
    Memory.wfFrom lo (m.insert a w) = true := by
  induction m generalizing lo with
  | nil => simp [Memory.insert, Memory.wfFrom, hlo, ha, hw]
  | cons c m ih =>
    obtain ⟨b, u⟩ := c
    by_cases hb : b = a
    · simp [Memory.lookup, hb] at hn
    · simp only [Memory.lookup, hb, if_false] at hn
      simp only [Memory.wfFrom, Bool.and_eq_true, decide_eq_true_eq] at h
      by_cases hlt : a < b
      · simp only [Memory.insert, hlt, if_true, Memory.wfFrom, Bool.and_eq_true, decide_eq_true_eq]
        exact ⟨⟨⟨hlo, ha⟩, by simpa using hw⟩, ⟨⟨by omega, h.1.1.2⟩, h.1.2⟩, h.2⟩
      · simp only [Memory.insert, hlt, if_false, Memory.wfFrom, Bool.and_eq_true, decide_eq_true_eq]
        exact ⟨h.1, ih h.2 hn (by omega)⟩

/-- Every write keeps the canonical form. -/
theorem Memory.wf_write {m : Memory} (a : Nat) (w : Byte) (h : m.wf = true) : (m.write a w).wf = true := by
  have he := Memory.wfFrom_erase (Memory.cellOf a) h
  by_cases hw : w = Memory.unlisted (Memory.cellOf a)
  · simpa [Memory.write, Memory.wf, ← hw] using he
  · simp only [Memory.write, hw, if_false]
    exact Memory.wfFrom_insert he (Memory.lookup_erase_same m _) (Nat.zero_le _) (Memory.cellOf_lt a) hw

@[simp] theorem Memory.wf_nil : Memory.wf [] = true := rfl

end Sys2Proof.Machine
end

