-- ==== Sys2Proof/Laws/Ops.lean ====
section
/-! SUPPORT. One lemma for each shared operation that says everything it can do. -/

namespace Sys2Proof.Machine

/-! ## Memory through the state -/

theorem State.readMem_writeMem (s : State) (a b : Nat) (w : Byte) :
    (s.writeMem a w).readMem b = if b % 4096 = a % 4096 then w else s.readMem b :=
  Memory.read_write s.mem a b w

/-- An address reads as its reduction modulo 4096 does (R61). -/
theorem State.readMem_mod (s : State) (a : Nat) : s.readMem (a % 4096) = s.readMem a := by
  simp [State.readMem, Memory.read, Memory.cellOf, Config.memSize]

/-- How far the cell of `a` lies above the cell of `base`, going round at 4096. -/
def offsetFrom (base a : Nat) : Nat := (a % 4096 + 4096 - base % 4096) % 4096

/-- Storing bytes changes memory alone. -/
theorem State.storeBytes_eq (base : Nat) (bs : List Byte) (s : State) :
    State.storeBytes base bs s = { s with mem := (State.storeBytes base bs s).mem } := by
  induction bs generalizing base s with
  | nil => rfl
  | cons b bs ih => rw [State.storeBytes, ih]; rfl

/-- Storing bytes: the cell `k` above `base` holds byte `k`, every other cell what it held. -/
theorem State.readMem_storeBytes (base : Nat) (bs : List Byte) (s : State) (a : Nat) (hlen : bs.length ≤ 4096) :
    (State.storeBytes base bs s).readMem a = (bs[offsetFrom base a]?).getD (s.readMem a) := by
  induction bs generalizing base s with
  | nil => simp [State.storeBytes]
  | cons b bs ih =>
    simp only [List.length_cons] at hlen
    rw [State.storeBytes, ih _ _ (by omega), State.readMem_writeMem]
    by_cases h : a % 4096 = base % 4096
    · have h0 : offsetFrom base a = 0 := by unfold offsetFrom; omega
      have h1 : offsetFrom (base + 1) a = 4095 := by unfold offsetFrom; omega
      rw [h0, h1, List.getElem?_eq_none (by omega)]
      simp [h]
    · have h1 : offsetFrom base a = offsetFrom (base + 1) a + 1 := by unfold offsetFrom; omega
      rw [h1]
      simp [h]

theorem State.wf_storeBytes (base : Nat) (bs : List Byte) (s : State) (h : s.mem.wf = true) :
    (State.storeBytes base bs s).mem.wf = true := by
  induction bs generalizing base s with
  | nil => exact h
  | cons b bs ih => exact ih _ _ (Memory.wf_write _ _ h)

/-- Loading registers changes the register file alone. -/
theorem State.loadBytes_eq (base k : Nat) (s : State) :
    State.loadBytes base k s = { s with v := (State.loadBytes base k s).v } := by
  induction k with
  | zero => rfl
  | succ k ih => rw [State.loadBytes, ih]; rfl

/-- Loading registers: `V[0]` to `V[k - 1]` hold the bytes from `base` upward, the rest what they held. -/
theorem State.getV_loadBytes (base k : Nat) (s : State) (hk : k ≤ 16) (r : Reg) :
    (State.loadBytes base k s).getV r = if r.val < k then s.readMem (base + r.val) else s.getV r := by
  induction k with
  | zero => simp [State.loadBytes]
  | succ k ih =>
    have hm : ∀ a, (State.loadBytes base k s).readMem a = s.readMem a := fun a => by
      rw [State.loadBytes_eq]; rfl
    rw [State.loadBytes, State.getV_setV, ih (by omega), hm]
    have hv : (Fin.ofNat 16 k).val = k := by rw [Fin.val_ofNat]; omega
    by_cases hr : r = Fin.ofNat 16 k
    · have : r.val = k := by rw [hr, hv]
      rw [if_pos hr, if_pos (by omega), this]
    · have : r.val ≠ k := fun e => hr (Fin.ext (by rw [hv, e]))
      simp only [hr, if_false]
      congr 1
      simp only [eq_iff_iff]
      omega

/-! ## Call stack -/

theorem State.push_some (s : State) (w : Word) (h : s.sp.val < 16) :
    s.push w = some { s with stack := s.stack.set s.sp.val w, sp := ⟨s.sp.val + 1, by omega⟩ } := by
  simp [State.push, h]

theorem State.push_none (s : State) (w : Word) (h : s.sp.val = 16) : s.push w = none := by simp [State.push, h]

theorem State.pop_some (s : State) (h : 0 < s.sp.val) :
    s.pop = some (s.stack[s.sp.val - 1]'(by omega), { s with sp := ⟨s.sp.val - 1, by omega⟩ }) := by
  simp [State.pop, h]

theorem State.pop_none (s : State) (h : s.sp.val = 0) : s.pop = none := by simp [State.pop, h]

/-! ## Operands -/

theorem toNat_addrWord (a : Addr) : (addrWord a).toNat = a.toNat := by
  have := a.isLt
  simp only [addrWord, BitVec.toNat_setWidth]
  omega

theorem toNat_byteWord (b : Byte) : (byteWord b).toNat = b.toNat := by
  have := b.isLt
  simp only [byteWord, BitVec.toNat_setWidth]
  omega

theorem val_lowDigit (b : Byte) : (lowDigit b).val = b.toNat % 16 := by
  simp only [lowDigit, BitVec.extractLsb', BitVec.toFin_ofNat, Fin.val_ofNat, Nat.shiftRight_zero]

theorem toNat_glyphAddress (d : Fin 16) : (glyphAddress d).toNat = 0x50 + 5 * d.val := by
  have := d.isLt
  simp only [glyphAddress, BitVec.toNat_ofNat, Config.fontBase, Config.glyphBytes]
  omega

/-- The first held key is held, and no lower key is (R201). -/
theorem firstHeldKey_some {key : BitVec 16} {k : Nat} :
    firstHeldKey key = some k ↔ k < 16 ∧ key.getLsbD k = true ∧ ∀ j < k, key.getLsbD j = false := by
  simp only [firstHeldKey, List.find?_range_eq_some, List.mem_range, Bool.not_eq_eq_eq_not]
  constructor
  · rintro ⟨h1, h2, h3⟩; exact ⟨h2, h1, by simpa using h3⟩
  · rintro ⟨h1, h2, h3⟩; exact ⟨h2, h1, by simpa using h3⟩

theorem firstHeldKey_none {key : BitVec 16} : firstHeldKey key = none ↔ ∀ k < 16, key.getLsbD k = false := by
  simp [firstHeldKey, List.find?_eq_none]

/-! ## Frames -/

theorem ipf_pos : 0 < Config.ipf := by
  have h : Config.ipf = (60 + Config.ipsAboveMin) / 60 := rfl
  omega

/-- The end of a step in the form of R125 and R129: the counter moves on, or returns to 0 and the tick follows with
the snapshot of this frame; then port `stop` is looked at (R131). -/
theorem finishStep_eq (s : State) : s.finishStep =
    if s.fcnt + 1 = Config.ipf then
      { tick (Config.keyIn s.frames) { s with fcnt := 0 } with stopped := s.stopped || s.stopIn }
    else { s with fcnt := s.fcnt + 1 } := by
  by_cases h : s.fcnt + 1 = Config.ipf <;> simp [State.finishStep, State.frameEnds, tick, h]

theorem completeStep_none {s : State} (h : s.fault = none) : s.completeStep = s.finishStep := by
  simp [State.completeStep, h]

theorem completeStep_some {s : State} {f : Fault} (h : s.fault = some f) : s.completeStep = s := by
  simp [State.completeStep, h]

theorem toNat_timerTick (t : Byte) : (timerTick t).toNat = t.toNat - 1 := by
  by_cases h : t = 0
  · simp [timerTick, h]
  · have h0 : t.toNat ≠ 0 := fun e => h (BitVec.eq_of_toNat_eq (by simpa using e))
    have := t.isLt
    have h1 : (1 : Byte).toNat = 1 := rfl
    simp only [timerTick, h, if_false, BitVec.toNat_sub, h1]
    omega

end Sys2Proof.Machine
end

