-- ==== Sys2Proof/Laws/PerInstr.lean ====
section
/-! SUPPORT. The family `FieldsOfWord`: the word of an instruction has the literal digits of its pattern (R96) in their
places and every operand in its field (R91, R92). One lemma per constructor. -/

namespace Sys2Proof.Laws.FieldsOfWord

/-- Formats ADDR, X_NN, X_Y_F, X_Y_N and X_FF of R92, by the fields R91 cuts from the word. -/
def addrForm (w : Word) (top : BitVec 4) (addr : Addr) : Prop := opTop w = top ∧ opAddr w = addr

def xnnForm (w : Word) (top : BitVec 4) (x : Reg) (nn : Byte) : Prop := opTop w = top ∧ opX w = x ∧ opNN w = nn

def xynForm (w : Word) (top : BitVec 4) (x y : Reg) (n : Fin 16) : Prop :=
  opTop w = top ∧ opX w = x ∧ opY w = y ∧ opN w = n

/-- What the word of each instruction holds. -/
def Statement (i : Instr) : Prop :=
  match i with
  | .cls => encode i = 0x00E0
  | .ret => encode i = 0x00EE
  | .jp a => addrForm (encode i) 0x1 a
  | .call a => addrForm (encode i) 0x2 a
  | .seImm x nn => xnnForm (encode i) 0x3 x nn
  | .sneImm x nn => xnnForm (encode i) 0x4 x nn
  | .seReg x y => xynForm (encode i) 0x5 x y 0x0
  | .ldImm x nn => xnnForm (encode i) 0x6 x nn
  | .addImm x nn => xnnForm (encode i) 0x7 x nn
  | .ldReg x y => xynForm (encode i) 0x8 x y 0x0
  | .orReg x y => xynForm (encode i) 0x8 x y 0x1
  | .andReg x y => xynForm (encode i) 0x8 x y 0x2
  | .xorReg x y => xynForm (encode i) 0x8 x y 0x3
  | .addReg x y => xynForm (encode i) 0x8 x y 0x4
  | .subReg x y => xynForm (encode i) 0x8 x y 0x5
  | .shr x y => xynForm (encode i) 0x8 x y 0x6
  | .subnReg x y => xynForm (encode i) 0x8 x y 0x7
  | .shl x y => xynForm (encode i) 0x8 x y 0xE
  | .ldI a => addrForm (encode i) 0xA a
  | .jpV0 a => addrForm (encode i) 0xB a
  | .rnd x nn => xnnForm (encode i) 0xC x nn
  | .drw x y n => xynForm (encode i) 0xD x y n
  | .skp x => xnnForm (encode i) 0xE x 0x9E
  | .sknp x => xnnForm (encode i) 0xE x 0xA1
  | .getDT x => xnnForm (encode i) 0xF x 0x07
  | .waitKey x => xnnForm (encode i) 0xF x 0x0A
  | .setDT x => xnnForm (encode i) 0xF x 0x15
  | .setST x => xnnForm (encode i) 0xF x 0x18
  | .addI x => xnnForm (encode i) 0xF x 0x1E
  | .ldFont x => xnnForm (encode i) 0xF x 0x29
  | .ldBcd x => xnnForm (encode i) 0xF x 0x33
  | .storeRegs x => xnnForm (encode i) 0xF x 0x55
  | .loadRegs x => xnnForm (encode i) 0xF x 0x65
  | .unrecognised w => encode i = w

theorem cls : Statement .cls := rfl

theorem ret : Statement .ret := rfl

theorem jp (a : Addr) : Statement (.jp a) := ⟨opTop_encAddr _ _, opAddr_encAddr _ _⟩

theorem call (a : Addr) : Statement (.call a) := ⟨opTop_encAddr _ _, opAddr_encAddr _ _⟩

theorem seImm (x : Reg) (nn : Byte) : Statement (.seImm x nn) :=
  ⟨opTop_encXNN _ _ _, opX_encXNN _ _ _, opNN_encXNN _ _ _⟩

theorem sneImm (x : Reg) (nn : Byte) : Statement (.sneImm x nn) :=
  ⟨opTop_encXNN _ _ _, opX_encXNN _ _ _, opNN_encXNN _ _ _⟩

theorem seReg (x : Reg) (y : Reg) : Statement (.seReg x y) :=
  ⟨opTop_encXYN _ _ _ _, opX_encXYN _ _ _ _, opY_encXYN _ _ _ _, opN_encXYN _ _ _ _⟩

theorem ldImm (x : Reg) (nn : Byte) : Statement (.ldImm x nn) :=
  ⟨opTop_encXNN _ _ _, opX_encXNN _ _ _, opNN_encXNN _ _ _⟩

theorem addImm (x : Reg) (nn : Byte) : Statement (.addImm x nn) :=
  ⟨opTop_encXNN _ _ _, opX_encXNN _ _ _, opNN_encXNN _ _ _⟩

theorem ldReg (x : Reg) (y : Reg) : Statement (.ldReg x y) :=
  ⟨opTop_encXYN _ _ _ _, opX_encXYN _ _ _ _, opY_encXYN _ _ _ _, opN_encXYN _ _ _ _⟩

theorem orReg (x : Reg) (y : Reg) : Statement (.orReg x y) :=
  ⟨opTop_encXYN _ _ _ _, opX_encXYN _ _ _ _, opY_encXYN _ _ _ _, opN_encXYN _ _ _ _⟩

theorem andReg (x : Reg) (y : Reg) : Statement (.andReg x y) :=
  ⟨opTop_encXYN _ _ _ _, opX_encXYN _ _ _ _, opY_encXYN _ _ _ _, opN_encXYN _ _ _ _⟩

theorem xorReg (x : Reg) (y : Reg) : Statement (.xorReg x y) :=
  ⟨opTop_encXYN _ _ _ _, opX_encXYN _ _ _ _, opY_encXYN _ _ _ _, opN_encXYN _ _ _ _⟩

theorem addReg (x : Reg) (y : Reg) : Statement (.addReg x y) :=
  ⟨opTop_encXYN _ _ _ _, opX_encXYN _ _ _ _, opY_encXYN _ _ _ _, opN_encXYN _ _ _ _⟩

theorem subReg (x : Reg) (y : Reg) : Statement (.subReg x y) :=
  ⟨opTop_encXYN _ _ _ _, opX_encXYN _ _ _ _, opY_encXYN _ _ _ _, opN_encXYN _ _ _ _⟩

theorem shr (x : Reg) (y : Reg) : Statement (.shr x y) :=
  ⟨opTop_encXYN _ _ _ _, opX_encXYN _ _ _ _, opY_encXYN _ _ _ _, opN_encXYN _ _ _ _⟩

theorem subnReg (x : Reg) (y : Reg) : Statement (.subnReg x y) :=
  ⟨opTop_encXYN _ _ _ _, opX_encXYN _ _ _ _, opY_encXYN _ _ _ _, opN_encXYN _ _ _ _⟩

theorem shl (x : Reg) (y : Reg) : Statement (.shl x y) :=
  ⟨opTop_encXYN _ _ _ _, opX_encXYN _ _ _ _, opY_encXYN _ _ _ _, opN_encXYN _ _ _ _⟩

theorem ldI (a : Addr) : Statement (.ldI a) := ⟨opTop_encAddr _ _, opAddr_encAddr _ _⟩

theorem jpV0 (a : Addr) : Statement (.jpV0 a) := ⟨opTop_encAddr _ _, opAddr_encAddr _ _⟩

theorem rnd (x : Reg) (nn : Byte) : Statement (.rnd x nn) := ⟨opTop_encXNN _ _ _, opX_encXNN _ _ _, opNN_encXNN _ _ _⟩

theorem drw (x : Reg) (y : Reg) (n : Fin 16) : Statement (.drw x y n) :=
  ⟨opTop_encXYN _ _ _ _, opX_encXYN _ _ _ _, opY_encXYN _ _ _ _, opN_encXYN _ _ _ _⟩

theorem skp (x : Reg) : Statement (.skp x) := ⟨opTop_encXNN _ _ _, opX_encXNN _ _ _, opNN_encXNN _ _ _⟩

theorem sknp (x : Reg) : Statement (.sknp x) := ⟨opTop_encXNN _ _ _, opX_encXNN _ _ _, opNN_encXNN _ _ _⟩

theorem getDT (x : Reg) : Statement (.getDT x) := ⟨opTop_encXNN _ _ _, opX_encXNN _ _ _, opNN_encXNN _ _ _⟩

theorem waitKey (x : Reg) : Statement (.waitKey x) := ⟨opTop_encXNN _ _ _, opX_encXNN _ _ _, opNN_encXNN _ _ _⟩

theorem setDT (x : Reg) : Statement (.setDT x) := ⟨opTop_encXNN _ _ _, opX_encXNN _ _ _, opNN_encXNN _ _ _⟩

theorem setST (x : Reg) : Statement (.setST x) := ⟨opTop_encXNN _ _ _, opX_encXNN _ _ _, opNN_encXNN _ _ _⟩

theorem addI (x : Reg) : Statement (.addI x) := ⟨opTop_encXNN _ _ _, opX_encXNN _ _ _, opNN_encXNN _ _ _⟩

theorem ldFont (x : Reg) : Statement (.ldFont x) := ⟨opTop_encXNN _ _ _, opX_encXNN _ _ _, opNN_encXNN _ _ _⟩

theorem ldBcd (x : Reg) : Statement (.ldBcd x) := ⟨opTop_encXNN _ _ _, opX_encXNN _ _ _, opNN_encXNN _ _ _⟩

theorem storeRegs (x : Reg) : Statement (.storeRegs x) := ⟨opTop_encXNN _ _ _, opX_encXNN _ _ _, opNN_encXNN _ _ _⟩

theorem loadRegs (x : Reg) : Statement (.loadRegs x) := ⟨opTop_encXNN _ _ _, opX_encXNN _ _ _, opNN_encXNN _ _ _⟩

theorem unrecognised (w : Word) : Statement (.unrecognised w) := rfl

end Sys2Proof.Laws.FieldsOfWord
end

