-- ==== Sys2Proof/Laws/Step.lean ====
section
/-! SUPPORT. What a step can do, said once, and what execute can do to each part of the state, said once. -/

namespace Sys2Proof.Machine

/-- A step gives a next state exactly when it is enabled (R120) and execute does, and then the next state is what
completing execute's state gives. -/
theorem step_next {s t : State} : step s = .next t ↔ s.fault = none ∧ s.stopped = false ∧
    ∃ u, exec (decodeWord s.fetchWord) s.advance = .next u ∧ t = u.completeStep := by
  unfold step State.barred
  cases hf : s.fault with
  | some f => simp
  | none =>
    cases hs : s.stopped with
    | true => simp
    | false =>
      simp only [Bool.false_eq_true, if_false, true_and]
      cases he : exec (decodeWord s.fetchWord) s.advance with
      | next u => simp [afterExec, eq_comm]
      | fault f => simp [afterExec]
      | refused r => simp [afterExec]

theorem step_halted {s : State} {f : Fault} (h : s.fault = some f) : step s = .fault f := by
  simp [step, State.barred, h]

theorem step_ended {s : State} (h : s.fault = none) (hs : s.stopped = true) : step s = .refused .runEnded := by
  simp [step, State.barred, h, hs]

/-- The state after a completed step is the state execute left, or that state finished. -/
theorem completeStep_cases (u : State) :
    (u.fault = none ∧ u.completeStep = u.finishStep) ∨ (u.fault ≠ none ∧ u.completeStep = u) := by
  cases h : u.fault with
  | none => exact .inl ⟨rfl, completeStep_none h⟩
  | some f => exact .inr ⟨by simp, completeStep_some h⟩

/-- `00EE` either pops or enters `StackUnderflow` (R141). -/
theorem execRet_cases (s : State) :
    (∃ h : 0 < s.sp.val, execRet s = .next { s with
      pc := s.stack[s.sp.val - 1]'(by omega), sp := ⟨s.sp.val - 1, by omega⟩ }) ∨
    (s.sp.val = 0 ∧ execRet s = .next { s with fault := some .stackUnderflow }) := by
  by_cases h : 0 < s.sp.val
  · exact .inl ⟨h, by rw [execRet, State.pop_some s h]; rfl⟩
  · exact .inr ⟨by omega, by rw [execRet, State.pop_none s (by omega)]; rfl⟩

/-- `2NNN` either pushes and jumps or enters `StackOverflow` (R143). -/
theorem execCall_cases (addr : Addr) (s : State) :
    (∃ h : s.sp.val < 16, execCall addr s = .next { s with
      stack := s.stack.set s.sp.val s.pc, sp := ⟨s.sp.val + 1, by omega⟩, pc := addrWord addr }) ∨
    (s.sp.val = 16 ∧ execCall addr s = .next { s with fault := some .stackOverflow }) := by
  by_cases h : s.sp.val < 16
  · exact .inl ⟨h, by rw [execCall, State.push_some s _ h]; rfl⟩
  · exact .inr ⟨by omega, by rw [execCall, State.push_none s _ (by omega)]; rfl⟩

/-- `FX0A` either takes the first held key or undoes the advance (R201). -/
theorem execWaitKey_cases (x : Reg) (s : State) :
    (∃ k, firstHeldKey s.key = some k ∧ execWaitKey x s = .next (s.setV x (BitVec.ofNat 8 k))) ∨
    (firstHeldKey s.key = none ∧ execWaitKey x s = .next (s.setPc (s.pc - 2))) := by
  cases h : firstHeldKey s.key with
  | none => exact .inr ⟨rfl, by simp [execWaitKey, h]⟩
  | some k => exact .inl ⟨k, rfl, by simp [execWaitKey, h]⟩

end Sys2Proof.Machine
end

