-- ==== Sys2Proof/Tests/Slice0.lean ====
section
/-! SUPPORT. Tests. Decodings of words written out from R96, one step of each instruction with the end state of
spec/95_test_vectors.md (each test names its row), checks that WellFormed refuses, and for every obligation with
hypotheses a witness that meets them. -/

namespace Sys2Proof.Tests

open Sys2Proof Sys2Proof.Machine

-- Elaborated one at a time: many small kernel evaluations side by side would each hold a thread of their own.
set_option Elab.async false

/-! ## Well-formed terms -/

/-- The one check: `unrecognised` with a word that some row of R96 matches is no instruction. -/
theorem test_illformed_unrecognised_cls : (Instr.unrecognised 0x00E0).wellFormed = false := by decide

theorem test_illformed_unrecognised_drw : (Instr.unrecognised 0xD123).wellFormed = false := by decide

theorem test_illformed_unrecognised_ldReg : (Instr.unrecognised 0x8AB0).wellFormed = false := by decide

theorem test_wellformed_unrecognised : (Instr.unrecognised 0x9AB0).wellFormed = true := by decide

/-! ## Decoding words written out from R96 -/

theorem test_decode_fixed_and_addr :
    decodeTableWord 16 0x00E0 = some (.cls) ∧
    decodeTableWord 16 0x00EE = some (.ret) ∧
    decodeTableWord 16 0x1ABC = some (.jp 0xABC) ∧
    decodeTableWord 16 0x2ABC = some (.call 0xABC) ∧
    decodeTableWord 16 0xA300 = some (.ldI 0x300) ∧
    decodeTableWord 16 0xBFFF = some (.jpV0 0xFFF) := by decide

theorem test_decode_immediate :
    decodeTableWord 16 0x3A5C = some (.seImm 0xA 0x5C) ∧
    decodeTableWord 16 0x4A5C = some (.sneImm 0xA 0x5C) ∧
    decodeTableWord 16 0x6A05 = some (.ldImm 0xA 0x05) ∧
    decodeTableWord 16 0x71FF = some (.addImm 0x1 0xFF) ∧
    decodeTableWord 16 0xC30F = some (.rnd 0x3 0x0F) ∧
    decodeTableWord 16 0xD123 = some (.drw 1 2 3) := by decide

theorem test_decode_register :
    decodeTableWord 16 0x5AB0 = some (.seReg 0xA 0xB) ∧
    decodeTableWord 16 0x8AB0 = some (.ldReg 0xA 0xB) ∧
    decodeTableWord 16 0x8AB1 = some (.orReg 0xA 0xB) ∧
    decodeTableWord 16 0x8AB2 = some (.andReg 0xA 0xB) ∧
    decodeTableWord 16 0x8AB3 = some (.xorReg 0xA 0xB) ∧
    decodeTableWord 16 0x8AB4 = some (.addReg 0xA 0xB) := by decide

theorem test_decode_register_more :
    decodeTableWord 16 0x8AB5 = some (.subReg 0xA 0xB) ∧
    decodeTableWord 16 0x8AB6 = some (.shr 0xA 0xB) ∧
    decodeTableWord 16 0x8AB7 = some (.subnReg 0xA 0xB) ∧
    decodeTableWord 16 0x8ABE = some (.shl 0xA 0xB) := by decide

theorem test_decode_key_and_timer :
    decodeTableWord 16 0xE29E = some (.skp 2) ∧
    decodeTableWord 16 0xE2A1 = some (.sknp 2) ∧
    decodeTableWord 16 0xF207 = some (.getDT 2) ∧
    decodeTableWord 16 0xF20A = some (.waitKey 2) ∧
    decodeTableWord 16 0xF215 = some (.setDT 2) ∧
    decodeTableWord 16 0xF218 = some (.setST 2) := by decide

theorem test_decode_index :
    decodeTableWord 16 0xF21E = some (.addI 2) ∧
    decodeTableWord 16 0xF229 = some (.ldFont 2) ∧
    decodeTableWord 16 0xF233 = some (.ldBcd 2) ∧
    decodeTableWord 16 0xF255 = some (.storeRegs 2) ∧
    decodeTableWord 16 0xFA65 = some (.loadRegs 0xA) := by decide

theorem test_decode_none :
    decodeTableWord 16 0x9AB0 = some (.unrecognised 0x9AB0) ∧
    decodeTableWord 16 0x5AB1 = some (.unrecognised 0x5AB1) ∧
    decodeTableWord 16 0x8AB8 = some (.unrecognised 0x8AB8) ∧
    decodeTableWord 16 0xE29F = some (.unrecognised 0xE29F) ∧
    decodeTableWord 16 0xFA66 = some (.unrecognised 0xFA66) ∧
    decodeTableWord 16 0x0001 = some (.unrecognised 0x0001) := by decide

/-- Bytes in memory order (R62), and a string too short for a word. -/
theorem test_decode_bytes : decodeBytes [0x6A, 0x05, 0x00] = .ok (.ldImm 0xA 0x05, [0x00]) := rfl

theorem test_decode_truncated : decodeBytes [0x6A] = .error (.truncated 1) := rfl

theorem test_encode_bytes : encodeBytes (.ldImm 0xA 0x05) = [0x6A, 0x05] := by decide

/-! ## One step of each instruction -/

/-- The reset state with `pc` moved. -/
def atPc (p : Word) : State := State.reset.setPc p

/-- What a test looks at, after one step of the instruction word `w` from `s`. -/
def look {α : Type} (w : Nat) (s : State) (f : State → α) : Option α :=
  match step (s.withFetchWord 16 w) with
  | .next t => some (f t)
  | _ => none

/-- T1. -/
theorem test_ret_pops : look 0x00EE ({ atPc 0x020C with sp := 1, stack := State.reset.stack.set 0 0x0206 })
    (fun t => (t.pc, t.sp)) = some (0x0206, 0) := by decide +kernel

/-- T2. -/
theorem test_ret_faults_when_empty : look 0x00EE (atPc 0x0200)
    (fun t => (t.pc, t.fault, t.fcnt)) = some (0x0202, some .stackUnderflow, 0) := by decide +kernel

/-- T5. -/
theorem test_jp_odd_target : look 0x1FFF (atPc 0x0200)
    (fun t => (t.pc, t.sp)) = some (0x0FFF, 0) := by decide +kernel

/-- T4. -/
theorem test_jp_backward : look 0x1204 (atPc 0x020A)
    (fun t => t.pc) = some 0x0204 := by decide +kernel

/-- T8. -/
theorem test_call_sixteenth : look 0x2300 ({ atPc 0x0200 with sp := 15 })
    (fun t => (t.pc, t.sp, t.stack.toList.getD 15 0)) = some (0x0300, 16, 0x0202) := by decide +kernel

/-- T9. -/
theorem test_call_seventeenth_faults : look 0x2300 ({ atPc 0x0200 with sp := 16 })
    (fun t => (t.pc, t.sp, t.fault, t.fcnt)) = some (0x0202, 16, some .stackOverflow, 0) := by decide +kernel

/-- T12. -/
theorem test_jpV0_passes_0xFFF : look 0xBFFF ((atPc 0x0200).setV 0 0xFF)
    (fun t => t.pc) = some 0x10FE := by decide +kernel

/-- T20. -/
theorem test_seImm_skips : look 0x3100 (atPc 0x0208)
    (fun t => t.pc) = some 0x020C := by decide +kernel

/-- T28. -/
theorem test_seImm_wraps : look 0x3000 (atPc 0xFFFC)
    (fun t => t.pc) = some 0x0000 := by decide +kernel

/-- T22. -/
theorem test_sneImm_skips : look 0x4207 ((atPc 0x0300).setV 2 0x05)
    (fun t => t.pc) = some 0x0304 := by decide +kernel

/-- T23. -/
theorem test_sneImm_stays : look 0x4205 ((atPc 0x0300).setV 2 0x05)
    (fun t => t.pc) = some 0x0302 := by decide +kernel

/-- T24. -/
theorem test_seReg_skips : look 0x5340 (((atPc 0x0210).setV 3 0x7F).setV 4 0x7F)
    (fun t => t.pc) = some 0x0214 := by decide +kernel

/-- T25. -/
theorem test_seReg_stays : look 0x5340 (((atPc 0x0210).setV 3 0x7F).setV 4 0x7E)
    (fun t => t.pc) = some 0x0212 := by decide +kernel

/-- T31. -/
theorem test_skp_low_digit : look 0xE39E (({ atPc 0x0202 with key := 0x0400 }).setV 3 0x1A)
    (fun t => t.pc) = some 0x0206 := by decide +kernel

/-- T30. -/
theorem test_skp_stays : look 0xE39E ((atPc 0x0202).setV 3 0x07)
    (fun t => t.pc) = some 0x0204 := by decide +kernel

/-- T34. -/
theorem test_sknp_held : look 0xE3A1 (({ atPc 0x0202 with key := 0x0080 }).setV 3 0xF7)
    (fun t => t.pc) = some 0x0204 := by decide +kernel

/-- T33. -/
theorem test_sknp_skips : look 0xE3A1 ((atPc 0x0202).setV 3 0x07)
    (fun t => t.pc) = some 0x0206 := by decide +kernel

/-- T40. -/
theorem test_ldImm : look 0x6A05 (atPc 0x0200)
    (fun t => (t.getV 0xA, t.pc)) = some (0x05, 0x0202) := by decide +kernel

/-- T13. -/
theorem test_ldImm_fetch_wraps : look 0x6A05 (atPc 0x0FFF)
    (fun t => (t.getV 0xA, t.pc)) = some (0x05, 0x1001) := by decide +kernel

/-- T42. -/
theorem test_addImm_wraps_no_flag : look 0x7002 (((atPc 0x0200).setV 0 0xFF).setV 0xF 0x55)
    (fun t => (t.getV 0, t.getV 0xF)) = some (0x01, 0x55) := by decide +kernel

/-- T47. -/
theorem test_ldI : look 0xAFFF ((atPc 0x0200).setI 0x1234)
    (fun t => t.ireg) = some 0x0FFF := by decide +kernel

/-- T49. -/
theorem test_rnd_masked_to_zero : look 0xC300 ((atPc 0x0200).setV 3 0x99)
    (fun t => (t.getV 3, t.draws)) = some (0x00, 1) := by decide +kernel

/-- T61. -/
theorem test_ldReg : look 0x8F10 (((atPc 0x0200).setV 1 0x37).setV 0xF 0x01)
    (fun t => t.getV 0xF) = some 0x37 := by decide +kernel

/-- T62. -/
theorem test_orReg_no_flag : look 0x8011 ((((atPc 0x0200).setV 0 0x0F).setV 1 0xF0).setV 0xF 0x77)
    (fun t => (t.getV 0, t.getV 0xF)) = some (0xFF, 0x77) := by decide +kernel

/-- T63. -/
theorem test_andReg : look 0x8012 (((atPc 0x0200).setV 0 0x3C).setV 1 0x0F)
    (fun t => t.getV 0) = some 0x0C := by decide +kernel

/-- T64. -/
theorem test_xorReg : look 0x8013 (((atPc 0x0200).setV 0 0xFF).setV 1 0x0F)
    (fun t => t.getV 0) = some 0xF0 := by decide +kernel

/-- T66. -/
theorem test_addReg_carry : look 0x8014 (((atPc 0x0200).setV 0 0xFF).setV 1 0x01)
    (fun t => (t.getV 0, t.getV 0xF)) = some (0x00, 0x01) := by decide +kernel

/-- T70. -/
theorem test_addReg_into_flag : look 0x8F14 (((atPc 0x0200).setV 1 0x20).setV 0xF 0xF0)
    (fun t => t.getV 0xF) = some 0x10 := by decide +kernel

/-- T73. -/
theorem test_subReg_borrow : look 0x8015 ((((atPc 0x0200).setV 0 0x01).setV 1 0x02).setV 0xF 0x01)
    (fun t => (t.getV 0, t.getV 0xF)) = some (0xFF, 0x00) := by decide +kernel

/-- T77. -/
theorem test_subReg_from_flag : look 0x8F15 (((atPc 0x0200).setV 1 0x03).setV 0xF 0x05)
    (fun t => t.getV 0xF) = some 0xFE := by decide +kernel

/-- T84. -/
theorem test_shr_ignores_y : look 0x8016 (((atPc 0x0200).setV 0 0xFF).setV 1 0x00)
    (fun t => (t.getV 0, t.getV 0xF)) = some (0x7F, 0x01) := by decide +kernel

/-- T86. -/
theorem test_shr_of_flag : look 0x8F06 ((atPc 0x0200).setV 0xF 0x02)
    (fun t => t.getV 0xF) = some 0x00 := by decide +kernel

/-- T89. -/
theorem test_subnReg_borrow : look 0x8017 ((((atPc 0x0200).setV 0 0x07).setV 1 0x02).setV 0xF 0x01)
    (fun t => (t.getV 0, t.getV 0xF)) = some (0xFB, 0x00) := by decide +kernel

/-- T93. -/
theorem test_subnReg_with_flag : look 0x82F7 (((atPc 0x0200).setV 2 0x05).setV 0xF 0x03)
    (fun t => (t.getV 2, t.getV 0xF)) = some (0xFB, 0x00) := by decide +kernel

/-- T98. -/
theorem test_shl_ignores_y : look 0x801E (((atPc 0x0200).setV 0 0x80).setV 1 0x55)
    (fun t => (t.getV 0, t.getV 0xF)) = some (0x00, 0x01) := by decide +kernel

/-- T97. -/
theorem test_shl_no_carry : look 0x800E (((atPc 0x0200).setV 0 0x40).setV 0xF 0x01)
    (fun t => (t.getV 0, t.getV 0xF)) = some (0x80, 0x00) := by decide +kernel

/-- T110. -/
theorem test_cls :
    look 0x00E0 ((({ atPc 0x0200 with fb := fbSet (fbSet fbClear 0 0 true) 63 31 true }).setV 0xF 0x01))
    (fun t => (t.pixel 0 0, t.pixel 63 31, t.getV 0xF)) = some (false, false, 0x01) := by decide +kernel

/-- T114. -/
theorem test_drw_clips :
    look 0xD012 ((((((atPc 0x0200).setI 0x020C).setV 0 0x3E).setV 1 0x1F).writeMem 0x20C 0xFF).writeMem 0x20D 0x81)
    (fun t => (t.pixel 61 31, t.pixel 62 31, t.pixel 63 31, t.pixel 0 31, t.pixel 62 0, t.getV 0xF)) =
    some (false, true, true, false, false, 0x00) := by decide +kernel

/-- T116. -/
theorem test_drw_collides :
    look 0xD011 (({ atPc 0x0200 with fb := fbSet (fbSet fbClear 1 0 true) 2 0 true }.setI 0x0300).writeMem 0x300 0xC0)
    (fun t => (t.pixel 0 0, t.pixel 1 0, t.pixel 2 0, t.getV 0xF)) =
    some (true, false, true, 0x01) := by decide +kernel

/-- T130. -/
theorem test_getDT : look 0xF107 ((atPc 0x0200).setDT 0x03)
    (fun t => (t.getV 1, t.pc)) = some (0x03, 0x0202) := by decide +kernel

/-- T131. -/
theorem test_waitKey_lowest : look 0xF30A ({ atPc 0x0200 with key := 0x0880 })
    (fun t => (t.getV 3, t.pc)) = some (0x07, 0x0202) := by decide +kernel

/-- T132. -/
theorem test_waitKey_rewinds : look 0xF30A ((atPc 0x0200).setV 3 0x55)
    (fun t => (t.getV 3, t.pc)) = some (0x55, 0x0200) := by decide +kernel

/-- T142. -/
theorem test_addI_wraps : look 0xF21E (((atPc 0x0200).setI 0xFFFF).setV 2 0x02)
    (fun t => (t.ireg, t.getV 0xF)) = some (0x0001, 0x00) := by decide +kernel

/-- T144. -/
theorem test_ldFont_low_digit : look 0xF029 ((atPc 0x0200).setV 0 0x1A)
    (fun t => t.ireg) = some 0x0082 := by decide +kernel

/-- T147. -/
theorem test_ldBcd : look 0xF033 (((atPc 0x0200).setI 0x0300).setV 0 0x9C)
    (fun t => (t.readMem 0x300, t.readMem 0x301, t.readMem 0x302, t.ireg)) =
    some (1, 5, 6, 0x0300) := by decide +kernel

/-- T152. -/
theorem test_ldBcd_wraps : look 0xF033 (((atPc 0x0200).setI 0x0FFF).setV 0 0xEA)
    (fun t => (t.readMem 0xFFF, t.readMem 0x000, t.readMem 0x001)) = some (2, 3, 4) := by decide +kernel

/-- T153. -/
theorem test_storeRegs : look 0xF155 (((((atPc 0x0300).setI 0x0208).setV 0 0x60).setV 1 0x2A).setV 2 0x77)
    (fun t => (t.readMem 0x208, t.readMem 0x209, t.readMem 0x20A, t.ireg)) =
    some (0x60, 0x2A, 0x00, 0x0208) := by decide +kernel

/-- T156. -/
theorem test_storeRegs_wraps : look 0xF155 ((((atPc 0x0200).setI 0x0FFF).setV 0 0x01).setV 1 0x02)
    (fun t => (t.readMem 0xFFF, t.readMem 0x000)) = some (0x01, 0x02) := by decide +kernel

/-- T158. -/
theorem test_loadRegs :
    look 0xF065 (((((atPc 0x0200).setI 0x0300).setV 1 0x11).writeMem 0x300 0x42).writeMem 0x301 0x43)
    (fun t => (t.getV 0, t.getV 1, t.ireg)) = some (0x42, 0x11, 0x0300) := by decide +kernel

/-- T161. -/
theorem test_loadRegs_from_font : look 0xF165 ((atPc 0x0200).setI 0x0050)
    (fun t => (t.getV 0, t.getV 1)) = some (0xF0, 0x90) := by decide +kernel

/-- T171. -/
theorem test_unrecognised_9XY0 : look 0x9120 (((atPc 0x0200).setV 1 0x22).setV 2 0x22)
    (fun t => (t.pc, t.getV 0xF)) = some (0x0202, 0x00) := by decide +kernel

/-- T183. -/
theorem test_unrecognised_00EF : look 0x00EF ({ atPc 0x0200 with sp := 1 })
    (fun t => (t.pc, t.sp, t.fault)) = some (0x0202, 1, none) := by decide +kernel

/-- T135, on execute: after a whole step `DT` depends on whether a tick follows, that is on `IPF`. -/
theorem test_setDT : exec (.setDT 0) (State.reset.setV 0 0x03) = .next ((State.reset.setV 0 0x03).setDT 0x03) := rfl

/-- T137, on execute. -/
theorem test_setST : exec (.setST 2) (State.reset.setV 2 0x1E) = .next ((State.reset.setV 2 0x1E).setST 0x1E) := rfl

/-- K1 and K2. -/
theorem test_tick :
    let t := tick 0x0000 { State.reset with dt := 0x03, st := 0x01, key := 0x0001 }
    let u := tick 0x0208 { State.reset with key := 0x0001 }
    (t.dt, t.st, t.key) = (0x02, 0x00, 0x0000) ∧ (u.dt, u.st, u.key) = (0x00, 0x00, 0x0208) := by decide +kernel

/-- R231. -/
theorem test_fault_codes :
    (faultCode none, faultCode (some .stackOverflow), faultCode (some .stackUnderflow)) = (0, 1, 2) := rfl

/-- R273: the image stands from 0x200 upward, the font is untouched, the cell after the image is zero. -/
theorem test_boot :
    let s := boot [0x6A, 0x05, 0x00, 0xE0]
    (s.readMem 0x200, s.readMem 0x203, s.readMem 0x204, s.readMem 0x050, s.pc) = (0x6A, 0xE0, 0x00, 0xF0, 0x0200) := by
  decide +kernel

/-- E9, its first step. -/
theorem test_end_to_end :
    (match step (boot [0x6A, 0x05, 0x00, 0xE0]) with
     | .next t => some (t.getV 0xA, t.pc)
     | _ => none) = some (0x05, 0x0202) := by decide +kernel

/-- Writing the unlisted byte back takes the cell off the list again (log entry 14). -/
theorem test_memory_canonical :
    Memory.write (Memory.write (Memory.write [] 0x300 0x11) 0x050 0x00) 0x300 0x00 = [(0x050, 0x00)] := by decide +kernel

theorem test_memory_wf_refuses_unsorted : Memory.wf [(0x301, 1), (0x300, 1)] = false := by decide

theorem test_memory_wf_refuses_unlisted_byte : Memory.wf [(0x050, 0xF0)] = false := by decide

/-! ## Witnesses: for each obligation with hypotheses, a state and operands that meet them -/

theorem witness_DecodeOfEncodeIsIdentity :
    (Instr.drw 0xF 0xF 0xF).wellFormed = true ∧ (Instr.shr 0xA 0xB).wellFormed = true ∧
    (Instr.unrecognised 0xFFFF).wellFormed = true := by decide

theorem witness_DispatchAgreesWithTheOpcodeMap : (⟨"JP_addr", 0xF000, 0x1000⟩ : OpcodeRow) ∈ opcodeMap := by
  simp [opcodeMap, opcodeMapWide]

theorem witness_BytesOfAnInstructionAreReadBack :
    (Instr.unrecognised 0x0000).wellFormed = true ∧ ([] : List Byte).length < 2 ∧ [(0x12 : Byte)].length < 2 := by
  decide

/-- The cells at both ends of the font and of memory. -/
theorem witness_ResetStateIsAsTabulated :
    [State.reset.readMem 0x000, State.reset.readMem 0x04F, State.reset.readMem 0x050, State.reset.readMem 0x09F,
     State.reset.readMem 0x0A0, State.reset.readMem 0xFFF] = [0x00, 0x00, 0xF0, 0x80, 0x00, 0x00] := by decide +kernel

/-- The first and the last byte that are copied, the cell below the image, and the first one after it. -/
theorem witness_RomIsCopiedVerbatimAndTruncated :
    (0 < (List.replicate 4000 (0x12 : Byte)).length ∧ 3583 < (List.replicate 4000 (0x12 : Byte)).length) ∧ (0x1FF < 4096 ∧ 0x1FF < 0x200) ∧
    (0x200 + [(0x12 : Byte)].length ≤ 0x201 ∧ 0x201 < 4096) := by
  rw [List.length_replicate]
  decide

/-- Bytes 0 and 1 of an `F155`, and bytes 14 and 15 of an `FF55`, whose second lies at 0x000. -/
theorem witness_StoredCodeIsFetched :
    (0 + 1 ≤ (1 : Reg).val ∧ (0x0300 : Word).toNat % 4096 = (State.reset.setI 0x0300).effAddr 0 % 4096) ∧
    (14 + 1 ≤ (0xF : Reg).val ∧ (0x0FFF : Word).toNat % 4096 = (State.reset.setI 0x0FF1).effAddr 14 % 4096) := by
  decide +kernel

/-- The reset state with all but the last step of its frame completed. -/
def lastOfFrame : State := { State.reset with fcnt := Config.ipf - 1 }

theorem lastOfFrame_ends : lastOfFrame.fcnt + 1 = Config.ipf := Nat.succ_pred_eq_of_pos ipf_pos

/-- The three ends of a step: with a tick, without one, with a fault. -/
theorem witness_StepRunsTheDecodedInstruction :
    (lastOfFrame.fault = none ∧ lastOfFrame.stopped = false ∧
      decodeWord (wordOfBytes (lastOfFrame.readMem lastOfFrame.pc.toNat) (lastOfFrame.readMem
        (lastOfFrame.pc.toNat + 1))) = .unrecognised 0x0000 ∧
      ∃ t, exec (.unrecognised 0x0000) (lastOfFrame.setPc (lastOfFrame.pc + 2)) = .next t ∧ t.fault = none ∧
        t.fcnt + 1 = Config.ipf) ∧
    (∃ t, exec (.unrecognised 0x0000) ({ State.reset with fcnt := Config.ipf }.setPc 0x0202) = .next t ∧
      t.fault = none ∧ t.fcnt + 1 ≠ Config.ipf) ∧
    (∃ t, exec .ret (State.reset.setPc 0x0202) = .next t ∧ t.fault ≠ none) :=
  ⟨⟨rfl, rfl, by decide +kernel, _, rfl, rfl, lastOfFrame_ends⟩, ⟨_, rfl, rfl, Nat.succ_ne_self _⟩, ⟨_, rfl, by decide⟩⟩

theorem witness_HaltedMachineTakesNoStep :
    ({ State.reset with fault := some .stackOverflow }).fault = some .stackOverflow ∧
    ({ State.reset with stopped := true }).fault = none ∧ ({ State.reset with stopped := true }).stopped = true :=
  ⟨rfl, rfl, rfl⟩

/-- A step that meets the unloaded memory's word 0x0000. -/
theorem step_over_zeros {s : State} (hf : s.fault = none) (hs : s.stopped = false)
    (hw : decodeWord s.fetchWord = .unrecognised 0x0000) : step s = .next s.advance.finishStep :=
  step_next.mpr ⟨hf, hs, s.advance, by rw [hw]; rfl, (completeStep_none (s := s.advance) hf).symm⟩

theorem reset_step : step State.reset = .next State.reset.advance.finishStep :=
  step_over_zeros rfl rfl (by decide +kernel)

/-- `lastOfFrame` with port `stop` asserted. -/
def stopAtFrameEnd : State := { lastOfFrame with stopIn := true }

theorem stopAtFrameEnd_step : step stopAtFrameEnd = .next stopAtFrameEnd.advance.finishStep :=
  step_over_zeros rfl rfl (by decide +kernel)

theorem stopAtFrameEnd_finish : stopAtFrameEnd.advance.finishStep = { tick (Config.keyIn 0)
    { stopAtFrameEnd.advance with fcnt := 0 } with stopped := true } := by
  have h : stopAtFrameEnd.advance.fcnt + 1 = Config.ipf := lastOfFrame_ends
  rw [finishStep_eq, if_pos h]; rfl

theorem witness_StepsAndTicksAddUp :
    State.reset.fcnt < Config.ipf ∧ ∃ t, runs 1 State.reset t ∧ t.fault = none :=
  ⟨ipf_pos, State.reset.advance.finishStep, by
    have h : Sys2Proof.core.step State.reset = .next State.reset.advance.finishStep := reset_step
    simp only [runs, Host.Core.run, h], rfl⟩

/-- A step with a tick, at which the run ends too, and a step without one (the counter out of range, as `IPF` may
be 1). -/
theorem witness_KeysChangeOnlyAtTicks_and_StopEndsRunsOnlyAtFrameBoundaries :
    (∃ t, step stopAtFrameEnd = .next t ∧ t.frames = stopAtFrameEnd.frames + 1 ∧ t.stopped = true) ∧
    (∃ t, step { State.reset with fcnt := Config.ipf } = .next t ∧ t.frames = 0) := by
  refine ⟨⟨_, stopAtFrameEnd_step, ?_⟩, ⟨_, step_over_zeros rfl rfl (by decide +kernel), ?_⟩⟩
  · rw [stopAtFrameEnd_finish]; exact ⟨rfl, rfl⟩
  · have h : (State.advance { State.reset with fcnt := Config.ipf }).fcnt + 1 ≠ Config.ipf := Nat.succ_ne_self _
    rw [finishStep_eq, if_neg h]; rfl

theorem witness_StepMovesPcAsTabulated : ∃ t, step State.reset = .next t ∧ t.fault = none := ⟨_, reset_step, rfl⟩

/-- A call that overflows: the reset state with a full stack and `2300` at `pc`. -/
def fullStack : State := { State.reset with sp := 16 }.withFetchWord 16 0x2300

/-- A return that underflows: `00EE` as the first instruction. -/
def emptyStack : State := State.reset.withFetchWord 16 0x00EE

theorem witness_FaultingStepWritesOnlyPcAndLatch :
    (∃ t, step fullStack = .next t ∧ t.fault = some .stackOverflow) ∧
    (∃ t, step emptyStack = .next t ∧ t.fault = some .stackUnderflow) := by
  have h1 : exec (decodeWord fullStack.fetchWord) fullStack.advance =
      .next { fullStack.advance with fault := some .stackOverflow } := by
    rw [show decodeWord fullStack.fetchWord = .call 0x300 by decide +kernel]; rfl
  have h2 : exec (decodeWord emptyStack.fetchWord) emptyStack.advance =
      .next { emptyStack.advance with fault := some .stackUnderflow } := by
    rw [show decodeWord emptyStack.fetchWord = .ret by decide +kernel]; rfl
  exact ⟨⟨_, step_next.mpr ⟨rfl, rfl, _, h1, rfl⟩, rfl⟩, ⟨_, step_next.mpr ⟨rfl, rfl, _, h2, rfl⟩, rfl⟩⟩

theorem witness_EveryStepKeepsTheInvariant : State.reset.Inv ∧ ∃ t, step State.reset = .next t :=
  ⟨⟨rfl, ipf_pos⟩, _, reset_step⟩

/-- Two states that differ in all sixteen dead entries: running, halted, and ended by the host. -/
def otherStack (s : State) : State := { s with stack := Vector.replicate 16 0x0777 }

theorem sameLiveState_otherStack (s : State) (h : s.sp = 0) : sameLiveState s (otherStack s) := by
  refine ⟨fun p hp => ?_, rfl, rfl, fun k hk => absurd hk (by rw [h]; exact Nat.not_lt_zero k)⟩
  cases p <;> first | exact absurd hp (by decide) | rfl | exact fun _ => rfl

theorem witness_DeadStackEntriesAreNeverObserved :
    (sameLiveState State.reset (otherStack State.reset) ∧ otherStack State.reset ≠ State.reset ∧
      ∃ t, step State.reset = .next t) ∧
    (sameLiveState { State.reset with fault := some .stackUnderflow }
        (otherStack { State.reset with fault := some .stackUnderflow }) ∧
      step { State.reset with fault := some .stackUnderflow } = .fault .stackUnderflow) ∧
    (sameLiveState { State.reset with stopped := true } (otherStack { State.reset with stopped := true }) ∧
      step { State.reset with stopped := true } = .refused .runEnded) :=
  ⟨⟨sameLiveState_otherStack _ rfl, fun h => absurd (congrArg (fun s : State => s.stack.toList) h) (by decide),
      _, reset_step⟩,
    ⟨sameLiveState_otherStack _ rfl, rfl⟩, ⟨sameLiveState_otherStack _ rfl, rfl⟩⟩

/-- A register the instruction names is not the one asked about; of a load, the register above the last one loaded. -/
theorem witness_OnlyListedRegistersAreWritten :
    (∃ t, exec (.addReg 3 4) State.reset = .next t ∧ ¬ mayWriteReg (.addReg 3 4) 4) ∧
    (∃ t, exec (.loadRegs 3) State.reset = .next t ∧ ¬ mayWriteReg (.loadRegs 3) 4) ∧
    (∃ t, exec .cls State.reset = .next t ∧ ¬ mayWriteReg .cls 0xF) :=
  ⟨⟨_, rfl, by simp [mayWriteReg]⟩, ⟨_, rfl, by simp [mayWriteReg]⟩, ⟨_, rfl, by simp [mayWriteReg]⟩⟩

/-- The cell just above the stored ones, and the one just below, across the end of memory. -/
theorem witness_OnlyStoresChangeMemory :
    (∃ t, exec (.ldBcd 0) State.reset = .next t ∧
      ∀ k < storedBytes (.ldBcd 0), Memory.cellOf 3 ≠ Memory.cellOf (State.reset.effAddr k)) ∧
    (∃ t, exec (.storeRegs 0xF) State.reset = .next t ∧
      ∀ k < storedBytes (.storeRegs 0xF), Memory.cellOf 0xFFF ≠ Memory.cellOf (State.reset.effAddr k)) :=
  ⟨⟨_, rfl, by decide +kernel⟩, ⟨_, rfl, by decide +kernel⟩⟩

theorem witness_ExecuteChangesOnlyTheListedParts : ∃ t, exec (.drw 0 1 5) State.reset = .next t := ⟨_, rfl⟩

/-- The fewest and the most entries a call may find. -/
theorem witness_CallPushesAdvancedPc :
    State.reset.sp.val < 16 ∧ ({ State.reset with sp := 15 }).sp.val < 16 := by decide

/-- The fewest and the most entries a return may find. -/
theorem witness_ReturnPopsNewestEntry :
    0 < ({ State.reset with sp := 1 }).sp.val ∧ 0 < ({ State.reset with sp := 16 }).sp.val := by decide

theorem witness_StackFaultsSetTheLatchAlone : ({ State.reset with sp := 16 }).sp.val = 16 ∧ State.reset.sp.val = 0 := by
  decide

/-- The routine that does nothing at all, and the sixteenth call. -/
theorem witness_CallThenReturnComesBack :
    ∃ t, exec (.call 0x300) { State.reset with sp := 15 } = .next t ∧ t.sp = t.sp ∧
      ∀ k : Nat, k < t.sp.val → t.stack.toList.getD k 0 = t.stack.toList.getD k 0 :=
  ⟨_, rfl, rfl, fun _ _ => rfl⟩

/-- The operand cases of R174 to R178: the flag register as neither operand, as `x`, as `y`, as both. -/
theorem witness_flag_register_cases :
    ((0 : Reg) ≠ 0xF ∧ (1 : Reg) ≠ 0xF) ∧ ((0xF : Reg) = 0xF ∧ (1 : Reg) ≠ 0xF) ∧
    ((0xE : Reg) ≠ 0xF ∧ (0xF : Reg) = 0xF) := by decide

/-- A sprite clipped at the corner: one pixel of 15 rows of 8, with a set bit that meets a lit pixel, and one that
meets none. -/
theorem witness_DrawMatchesTheClosedForm :
    let s := ((((State.reset.setI 0x0300).setV 0 0x7F).setV 1 0x3F).writeMem 0x300 0x80)
    63 = (s.getV 0).toNat % 64 ∧ 31 = (s.getV 1).toNat % 32 ∧ 1 = min (15 : Fin 16).val (32 - 31) ∧
    1 = min 8 (64 - 63) ∧ spriteBit s 0 0 = true ∧ s.pixel 63 31 = false ∧
    (s.setFb (fbSet fbClear 63 31 true)).pixel 63 31 = true := by decide +kernel

theorem witness_DrawingTwiceRestoresTheScreen : (0 : Reg) ≠ 0xF ∧ (0xE : Reg) ≠ 0xF := by decide

/-- Key 0 alone, key 15 alone, and no key. -/
theorem witness_WaitForKeyTakesLowestOrRewinds :
    (({ State.reset with key := 0x0001 }).keyHeld 0 = true) ∧
    (({ State.reset with key := 0x8000 }).keyHeld 15 = true ∧
      ∀ j < 15, ({ State.reset with key := 0x8000 }).keyHeld j = false) ∧
    (∀ k : Nat, k < 16 → State.reset.keyHeld k = false) := by decide +kernel

theorem witness_WaitingStepChangesNothingButTheFrame :
    let s := State.reset.withFetchWord 16 0xF30A
    s.fault = none ∧ s.stopped = false ∧ decodeWord s.fetchWord = .waitKey 3 ∧
    ∀ k : Nat, k < 16 → s.keyHeld k = false := by decide +kernel

/-- The first cell after the three digits. -/
theorem witness_DecimalDigitsAreStored :
    ∀ k < 3, Memory.cellOf 0x303 ≠ Memory.cellOf ((State.reset.setI 0x0300).effAddr k) := by decide +kernel

/-- All sixteen registers, and the first cell after them, round the end of memory. -/
theorem witness_RegistersAreStoredFromI :
    (0xF : Reg) ≤ 0xF ∧
    ∀ k < (0xF : Reg).val + 1, Memory.cellOf 0x007 ≠ Memory.cellOf ((State.reset.setI 0x0FF7).effAddr k) := by
  decide +kernel

theorem witness_RegistersAreLoadedFromI : (0x3 : Reg) ≤ 0x3 ∧ (0x3 : Reg) < 0x4 := by decide

theorem witness_StoredRegistersComeBack :
    ∃ t, exec (.storeRegs 0xF) State.reset = .next t ∧ t.ireg = t.ireg ∧ ∀ a : Nat, t.readMem a = t.readMem a :=
  ⟨_, rfl, rfl, fun _ => rfl⟩

theorem witness_UnrecognisedWordsDoNothing :
    State.reset.fault = none ∧ State.reset.stopped = false ∧
    decodeWord State.reset.fetchWord = .unrecognised 0x0000 := by decide +kernel

end Sys2Proof.Tests
end

/-! # The state (section 10 of the spec): the frame of execute, the invariant, what cannot be observed -/

namespace Sys2Proof.Machine

/-! ## The frame of execute

`onlyWrites` is the literal form of `onlyChanged`: it compares the register file and memory as fields, so it also says
that the list form of memory is left alone. One rule per state operation, then one theorem
for all of `exec`. Each rule asks that the part it writes be listed, which is looked up in `mayWritePart`. -/

/-- The part is the same field, or pair of fields, in both states. -/
def Part.kept (s t : State) : Part → Prop
  | .v => t.v = s.v
  | .mem => t.mem = s.mem
  | p => p.same s t

/-- Every part outside `changed` is the same field in both states. -/
def onlyWrites (changed : List Part) (s t : State) : Prop := ∀ p : Part, p ∉ changed → p.kept s t

theorem Part.kept.same {s t : State} {p : Part} (h : p.kept s t) : p.same s t := by
  cases p with
  | v =>
    intro r
    have hv : t.v = s.v := h
    simp only [State.getV, hv]
  | mem =>
    intro a
    have hm : t.mem = s.mem := h
    simp only [State.readMem, hm]
  | _ => exact h

theorem onlyWrites.onlyChanged {changed : List Part} {s t : State} (h : onlyWrites changed s t) :
    onlyChanged changed s t :=
  fun p hp => (h p hp).same

section Rules

variable {changed : List Part} {s t : State}

theorem onlyWrites.refl (changed : List Part) (s : State) : onlyWrites changed s s := by
  intro p _
  cases p with
  | v | mem => rfl
  | _ => simp [Part.kept, Part.same]

theorem onlyWrites.setV (h : onlyWrites changed s t) (x : Reg) (b : Byte)
    (hv : .v ∈ changed := by simp [mayWritePart]) : onlyWrites changed s (t.setV x b) := by
  intro p hp
  cases p with
  | v => exact absurd hv hp
  | _ => exact h _ hp

theorem onlyWrites.setPc (h : onlyWrites changed s t) (w : Word)
    (hpc : .pc ∈ changed := by simp [mayWritePart]) : onlyWrites changed s (t.setPc w) := by
  intro p hp
  cases p with
  | pc => exact absurd hpc hp
  | _ => exact h _ hp

theorem onlyWrites.skipIf (h : onlyWrites changed s t) (c : Bool)
    (hpc : .pc ∈ changed := by simp [mayWritePart]) : onlyWrites changed s (t.skipIf c) := by
  cases c with
  | true => exact h.setPc _ hpc
  | false => exact h

theorem onlyWrites.setI (h : onlyWrites changed s t) (w : Word)
    (hi : .ireg ∈ changed := by simp [mayWritePart]) : onlyWrites changed s (t.setI w) := by
  intro p hp
  cases p with
  | ireg => exact absurd hi hp
  | _ => exact h _ hp

theorem onlyWrites.setDT (h : onlyWrites changed s t) (b : Byte)
    (hdt : .dt ∈ changed := by simp [mayWritePart]) : onlyWrites changed s (t.setDT b) := by
  intro p hp
  cases p with
  | dt => exact absurd hdt hp
  | _ => exact h _ hp

theorem onlyWrites.setST (h : onlyWrites changed s t) (b : Byte)
    (hst : .st ∈ changed := by simp [mayWritePart]) : onlyWrites changed s (t.setST b) := by
  intro p hp
  cases p with
  | st => exact absurd hst hp
  | _ => exact h _ hp

theorem onlyWrites.setFb (h : onlyWrites changed s t) (f : FrameBuffer)
    (hfb : .fb ∈ changed := by simp [mayWritePart]) : onlyWrites changed s (t.setFb f) := by
  intro p hp
  cases p with
  | fb => exact absurd hfb hp
  | _ => exact h _ hp

theorem onlyWrites.drawRandom (h : onlyWrites changed s t)
    (hd : .draws ∈ changed := by simp [mayWritePart]) : onlyWrites changed s t.drawRandom.2 := by
  intro p hp
  cases p with
  | draws => exact absurd hd hp
  | _ => exact h _ hp

theorem onlyWrites.storeBytes (h : onlyWrites changed s t) (base : Nat) (bs : List Byte)
    (hm : .mem ∈ changed := by simp [mayWritePart]) :
    onlyWrites changed s (State.storeBytes base bs t) := by
  rw [State.storeBytes_eq]
  intro p hp
  cases p with
  | mem => exact absurd hm hp
  | _ => exact h _ hp

theorem onlyWrites.loadBytes (h : onlyWrites changed s t) (base k : Nat)
    (hv : .v ∈ changed := by simp [mayWritePart]) : onlyWrites changed s (State.loadBytes base k t) := by
  rw [State.loadBytes_eq]
  intro p hp
  cases p with
  | v => exact absurd hv hp
  | _ => exact h _ hp

/-- Calls, returns and their faults write `pc`, the call stack and the latch. -/
theorem onlyWrites.control (h : onlyWrites changed s t) (w : Word) (n : Fin 17) (k : Vector Word 16) (f : Option Fault)
    (hpc : .pc ∈ changed := by simp [mayWritePart]) (hst : .stack ∈ changed := by simp [mayWritePart])
    (hf : .fault ∈ changed := by simp [mayWritePart]) :
    onlyWrites changed s { t with pc := w, sp := n, stack := k, fault := f } := by
  intro p hp
  cases p with
  | pc => exact absurd hpc hp
  | stack => exact absurd hst hp
  | fault => exact absurd hf hp
  | _ => exact h _ hp

end Rules

/-- What execute may write, for every instruction. -/
theorem exec_onlyWrites {i : Instr} {s t : State} (h : exec i s = .next t) : onlyWrites (mayWritePart i) s t := by
  have start := onlyWrites.refl (mayWritePart i) s
  cases i with
  | cls => cases h; exact start.setFb _
  | ret =>
    rcases execRet_cases s with ⟨_, he⟩ | ⟨_, he⟩ <;> cases he.symm.trans h <;>
      exact start.control _ _ _ _
  | call addr =>
    rcases execCall_cases addr s with ⟨_, he⟩ | ⟨_, he⟩ <;> cases he.symm.trans h <;>
      exact start.control _ _ _ _
  | jp | jpV0 => cases h; exact start.setPc _
  | seImm | sneImm | seReg | skp | sknp => cases h; exact start.skipIf _
  | ldImm | addImm | ldReg | orReg | andReg | xorReg | getDT => cases h; exact start.setV _ _
  | addReg | subReg | shr | subnReg | shl => cases h; exact (start.setV _ _).setV _ _
  | ldI | addI | ldFont => cases h; exact start.setI _
  | rnd => cases h; exact start.drawRandom.setV _ _
  | drw => cases h; exact ((start.setV _ _).setFb _).setV _ _
  | waitKey x =>
    rcases execWaitKey_cases x s with ⟨k, _, he⟩ | ⟨_, he⟩ <;> cases he.symm.trans h
    · exact start.setV _ _
    · exact start.setPc _
  | setDT => cases h; exact start.setDT _
  | setST => cases h; exact start.setST _
  | ldBcd | storeRegs => cases h; exact start.storeBytes _ _
  | loadRegs => cases h; exact start.loadBytes _ _
  | unrecognised => cases h; exact start

/-- Settles O28: the literal frame of execute implies the frame as it is read. -/
theorem executeChangesOnlyTheListedParts : Obligations.ExecuteChangesOnlyTheListedParts :=
  fun _ _ _ h => (exec_onlyWrites h).onlyChanged

/-! ## Registers -/

/-- Settles O26: the forms whose frame lists no register keep the file; the others write at the registers listed. -/
theorem onlyListedRegistersAreWritten : Obligations.OnlyListedRegistersAreWritten := by
  intro i s t r h hr
  by_cases hv : Part.v ∈ mayWritePart i
  case neg => exact (exec_onlyWrites h).onlyChanged .v hv r
  cases i with
  | ldImm | addImm | ldReg | orReg | andReg | xorReg | getDT =>
    cases h
    exact State.getV_setV_other _ hr _
  | rnd =>
    cases h
    rw [State.getV_setV_other _ hr, State.getV_drawRandom]
  | addReg | subReg | shr | subnReg | shl =>
    cases h
    obtain ⟨hx, hflag⟩ := not_or.mp hr
    simp [State.getV_setV, hx, flagReg, hflag]
  | drw =>
    cases h
    have hflag : r ≠ flagReg := hr
    simp [hflag]
  | waitKey x =>
    rcases execWaitKey_cases x s with ⟨k, _, he⟩ | ⟨_, he⟩ <;> cases he.symm.trans h
    · exact State.getV_setV_other _ hr _
    · rfl
  | loadRegs x =>
    cases h
    have hx : ¬ r.val < x.val + 1 := fun e => hr (Fin.le_def.mpr (by omega))
    rw [State.getV_loadBytes _ _ _ (by omega), if_neg hx]
  | _ => simp [mayWritePart] at hv

/-! ## What the end of a step leaves to execute -/

@[simp] theorem State.completeStep_pc (u : State) : u.completeStep.pc = u.pc := by
  rcases completeStep_cases u with ⟨_, h⟩ | ⟨_, h⟩ <;> simp [h]

@[simp] theorem State.completeStep_mem (u : State) : u.completeStep.mem = u.mem := by
  rcases completeStep_cases u with ⟨_, h⟩ | ⟨_, h⟩ <;> simp [h]

@[simp] theorem State.completeStep_fault (u : State) : u.completeStep.fault = u.fault := by
  rcases completeStep_cases u with ⟨_, h⟩ | ⟨_, h⟩ <;> simp [h]

/-! ## The program counter -/

theorem pcAfter_of_pc_not_mem {i : Instr} (s : State) (h : Part.pc ∉ mayWritePart i) : pcAfter s i = s.pc + 2 := by
  cases i with
  | ret | jp | call | jpV0 | seImm | sneImm | seReg | skp | sknp | waitKey => simp [mayWritePart] at h
  | _ => rfl

/-- A skip after the advance goes to `a + 4` (R24, R150). -/
theorem add_two_add_two (a : Word) : a + 2#16 + 2#16 = a + 4#16 := by
  rw [BitVec.add_assoc]
  rfl

theorem firstHeldKey_eq_none_iff {key : BitVec 16} : firstHeldKey key = none ↔ key = 0#16 := by
  rw [firstHeldKey_none]
  constructor
  · intro h
    apply BitVec.eq_of_getLsbD_eq
    intro k hk
    simp [h k hk]
  · rintro rfl k _
    simp

/-- Execute after the advance, when it raises no fault, leaves `pc` as R24 tabulates it. -/
theorem exec_advance_pc {i : Instr} {s u : State} (h : exec i s.advance = .next u) (hu : u.fault = none) :
    u.pc = pcAfter s i := by
  by_cases hpc : Part.pc ∈ mayWritePart i
  case neg => rw [pcAfter_of_pc_not_mem s hpc]; exact exec_onlyWrites h .pc hpc
  cases i with
  | ret =>
    rcases execRet_cases s.advance with ⟨hsp, he⟩ | ⟨_, he⟩ <;> cases he.symm.trans h
    · have hlt : s.sp.val - 1 < 16 := by omega
      simp [pcAfter, hlt]
    · cases hu
  | call addr =>
    rcases execCall_cases addr s.advance with ⟨_, he⟩ | ⟨_, he⟩ <;> cases he.symm.trans h
    · rfl
    · cases hu
  | jp | jpV0 => cases h; rfl
  | seImm | sneImm | seReg | skp | sknp =>
    cases h
    simp [pcAfter, add_two_add_two, State.keyHeld, val_lowDigit]
  | waitKey x =>
    rcases execWaitKey_cases x s.advance with ⟨k, hk, he⟩ | ⟨hk, he⟩ <;> cases he.symm.trans h
    · have hkey : s.key ≠ 0#16 := fun e => by simp [firstHeldKey_eq_none_iff.mpr e] at hk
      simp [pcAfter, hkey]
    · have hkey : s.key = 0#16 := firstHeldKey_eq_none_iff.mp hk
      simp [pcAfter, hkey]
  | _ => simp [mayWritePart] at hpc

/-- Settles O21: the end of the step leaves `pc` as execute set it. -/
theorem stepMovesPcAsTabulated : Obligations.StepMovesPcAsTabulated := by
  intro s t h ht
  obtain ⟨_, _, u, hu, rfl⟩ := step_next.mp h
  rw [State.completeStep_pc]
  exact exec_advance_pc hu (by simpa using ht)

/-! ## The tick and the keypad latch -/

theorem exec_key {i : Instr} {s t : State} (h : exec i s = .next t) : t.key = s.key :=
  exec_onlyWrites h .key (by cases i <;> simp [mayWritePart])

theorem exec_fcnt {i : Instr} {s t : State} (h : exec i s = .next t) : t.fcnt = s.fcnt :=
  exec_onlyWrites h .fcnt (by cases i <;> simp [mayWritePart])

theorem exec_frames {i : Instr} {s t : State} (h : exec i s = .next t) : t.frames = s.frames :=
  exec_onlyWrites h .frames (by cases i <;> simp [mayWritePart])

/-- After execute a step halts with the frame as it was, or moves the counter on inside the frame, or ends the frame
with the tick (R125, R129, R233). -/
theorem completeStep_frame_cases (u : State) :
    (u.completeStep.fcnt = u.fcnt ∧ u.completeStep.frames = u.frames ∧ u.completeStep.key = u.key) ∨
    (u.fcnt + 1 ≠ Config.ipf ∧
      u.completeStep.fcnt = u.fcnt + 1 ∧ u.completeStep.frames = u.frames ∧ u.completeStep.key = u.key) ∨
    (u.fcnt + 1 = Config.ipf ∧
      u.completeStep.fcnt = 0 ∧ u.completeStep.frames = u.frames + 1 ∧
      u.completeStep.key = Config.keyIn u.frames) := by
  rcases completeStep_cases u with ⟨_, h⟩ | ⟨_, h⟩
  · by_cases he : u.fcnt + 1 = Config.ipf
    · exact .inr (.inr (by simp [h, finishStep_eq, he, tick]))
    · exact .inr (.inl (by simp [h, finishStep_eq, he]))
  · exact .inl (by simp [h])

/-- Settles O19: execute leaves the latch and the frame alone, so only the end of the step moves them. -/
theorem keysChangeOnlyAtTicks : Obligations.KeysChangeOnlyAtTicks := by
  intro s t h
  obtain ⟨_, _, u, hu, rfl⟩ := step_next.mp h
  have hkey : u.key = s.key := exec_key (s := s.advance) hu
  have hfcnt : u.fcnt = s.fcnt := exec_fcnt (s := s.advance) hu
  have hframes : u.frames = s.frames := exec_frames (s := s.advance) hu
  rw [← hkey, ← hfcnt, ← hframes]
  rcases completeStep_frame_cases u with ⟨_, hf, hk⟩ | ⟨_, _, hf, hk⟩ | ⟨he, hc, hf, hk⟩
  · exact .inl ⟨hf, hk⟩
  · exact .inl ⟨hf, hk⟩
  · exact .inr ⟨hf, hk, he, hc⟩

/-- Settles O17, by induction on the snapshots. -/
theorem timersSaturateAtZeroOverManyTicks : Obligations.TimersSaturateAtZeroOverManyTicks := by
  intro snapshots
  induction snapshots with
  | nil => intro s; exact ⟨rfl, rfl⟩
  | cons keys rest ih =>
    intro s
    obtain ⟨hdt, hst⟩ := ih (tick keys s)
    have hdt1 : (tick keys s).dt.toNat = s.dt.toNat - 1 := toNat_timerTick s.dt
    have hst1 : (tick keys s).st.toNat = s.st.toNat - 1 := toNat_timerTick s.st
    rw [List.foldl_cons, List.length_cons]
    omega

/-! ## The invariant -/

theorem exec_mem_wf {i : Instr} {s t : State} (hs : s.mem.wf = true) (h : exec i s = .next t) : t.mem.wf = true := by
  by_cases hm : Part.mem ∈ mayWritePart i
  · cases i with
    | ldBcd | storeRegs => cases h; exact State.wf_storeBytes _ _ _ hs
    | _ => simp [mayWritePart] at hm
  · have hkept : t.mem = s.mem := exec_onlyWrites h .mem hm
    rwa [hkept]

theorem State.Inv.completeStep {u : State} (h : u.Inv) : u.completeStep.Inv := by
  obtain ⟨hwf, hlt⟩ := h
  have hpos := ipf_pos
  refine ⟨by rwa [State.completeStep_mem], ?_⟩
  rcases completeStep_frame_cases u with ⟨hc, _⟩ | ⟨hne, hc, _⟩ | ⟨_, hc, _⟩ <;> omega

/-- Settles O23: execute keeps the invariant, and so does the end of the step. -/
theorem everyStepKeepsTheInvariant : Obligations.EveryStepKeepsTheInvariant := by
  rintro s t ⟨hwf, hlt⟩ h
  obtain ⟨_, _, u, hu, rfl⟩ := step_next.mp h
  have huInv : u.Inv := ⟨exec_mem_wf (s := s.advance) hwf hu, by rwa [exec_fcnt hu]⟩
  exact huInv.completeStep

/-- Settles O24: loading writes memory alone, one canonical write after another. -/
theorem invariantHoldsAtBoot : Obligations.InvariantHoldsAtBoot := by
  refine ⟨⟨Memory.wf_nil, ipf_pos⟩, fun rom => ⟨State.wf_storeBytes _ _ _ Memory.wf_nil, ?_⟩⟩
  rw [boot, State.loadRom, State.storeBytes_eq]
  exact ipf_pos

/-! ## Reset -/

/-- With an empty list an address of R32 reads as the font or zero. -/
theorem State.readMem_reset {a : Nat} (ha : a < 4096) :
    State.reset.readMem a = if 0x050 ≤ a ∧ a < 0x0A0 then font.getD (a - 0x050) 0 else 0 := by
  have hcell : Memory.cellOf a = a := Nat.mod_eq_of_lt ha
  calc State.reset.readMem a = Memory.unlisted (Memory.cellOf a) := rfl
    _ = Memory.unlisted a := by rw [hcell]
    _ = _ := rfl

/-- Settles O7, field by field. -/
theorem resetStateIsAsTabulated : Obligations.ResetStateIsAsTabulated := by
  refine ⟨rfl, rfl, rfl, rfl, fun r => ?_, rfl, rfl, rfl, rfl, fbPixel_fbClear, fun a => State.readMem_reset⟩
  simp [State.getV, State.reset]

/-! ## Dead call-stack entries

States with the same live parts are one state and itself with another `STACK`. Every instruction but `00EE` and `2NNN`
commutes with the exchange of `STACK`; those two read and write only below the new or the old `SP`. -/

/-- The state with other call-stack entries; `SP` stays. -/
def State.setStack (s : State) (k : Vector Word 16) : State := { s with stack := k }

@[simp] theorem State.setStack_sp (s : State) (k : Vector Word 16) : (s.setStack k).sp = s.sp := rfl

@[simp] theorem State.setStack_stack (s : State) (k : Vector Word 16) : (s.setStack k).stack = k := rfl

/-- Two call stacks have the same entries below `n`. -/
def agreeBelow (n : Nat) (a b : Vector Word 16) : Prop := ∀ k < n, a.toList.getD k 0 = b.toList.getD k 0

theorem agreeBelow.mono {m n : Nat} {a b : Vector Word 16} (h : agreeBelow n a b) (hmn : m ≤ n) : agreeBelow m a b :=
  fun k hk => h k (by omega)

theorem agreeBelow.getElem {n k : Nat} {a b : Vector Word 16} (h : agreeBelow n a b) (hk : k < n) (hk16 : k < 16) :
    a[k] = b[k] := by
  simpa [hk16] using h k hk

/-- The same entry written on top of stacks that agree below it. -/
theorem agreeBelow.push {n : Nat} {a b : Vector Word 16} (h : agreeBelow n a b) (hn : n < 16) (w : Word) :
    agreeBelow (n + 1) (a.set n w) (b.set n w) := by
  intro k hk
  by_cases hkn : k = n
  · subst hkn
    simp [hn]
  · have hk16 : k < 16 := by omega
    simpa [hk16, Vector.getElem_set, Ne.symm hkn] using h k (by omega)

theorem sameLiveState_setStack {s : State} {k : Vector Word 16} (h : agreeBelow s.sp.val k s.stack) :
    sameLiveState s (s.setStack k) := by
  refine ⟨?_, rfl, rfl, h⟩
  intro p hp
  cases p with
  | stack => simp at hp
  | v | mem => exact fun _ => rfl
  | _ => rfl

theorem exists_setStack_of_sameLiveState {s t : State} (h : sameLiveState s t) :
    ∃ k, t = s.setStack k ∧ agreeBelow s.sp.val k s.stack := by
  obtain ⟨hparts, hmem, hsp, hlive⟩ := h
  refine ⟨t.stack, ?_, hlive⟩
  have hv : t.v = s.v := State.v_ext (hparts .v (by simp))
  have hpc : t.pc = s.pc := hparts .pc (by simp)
  have hireg : t.ireg = s.ireg := hparts .ireg (by simp)
  have hdt : t.dt = s.dt := hparts .dt (by simp)
  have hst : t.st = s.st := hparts .st (by simp)
  have hfb : t.fb = s.fb := hparts .fb (by simp)
  have hkey : t.key = s.key := hparts .key (by simp)
  have hfault : t.fault = s.fault := hparts .fault (by simp)
  have hfcnt : t.fcnt = s.fcnt := hparts .fcnt (by simp)
  have hdraws : t.draws = s.draws := hparts .draws (by simp)
  have hframes : t.frames = s.frames := hparts .frames (by simp)
  have hstopIn : t.stopIn = s.stopIn := hparts .stopIn (by simp)
  have hstopped : t.stopped = s.stopped := hparts .stopped (by simp)
  rw [State.setStack, ← hv, ← hpc, ← hireg, ← hsp, ← hdt, ← hst, ← hfb, ← hkey, ← hmem, ← hfault, ← hfcnt, ← hdraws,
    ← hframes, ← hstopIn, ← hstopped]

theorem State.setStack_skipIf (s : State) (k : Vector Word 16) (c : Bool) :
    (s.setStack k).skipIf c = (s.skipIf c).setStack k := by
  cases c <;> rfl

theorem State.storeBytes_setStack (base : Nat) (bs : List Byte) (s : State) (k : Vector Word 16) :
    State.storeBytes base bs (s.setStack k) = (State.storeBytes base bs s).setStack k := by
  induction bs generalizing base s with
  | nil => rfl
  | cons b bs ih => exact ih (base + 1) (s.writeMem base b)

theorem State.loadBytes_setStack (base n : Nat) (s : State) (k : Vector Word 16) :
    State.loadBytes base n (s.setStack k) = (State.loadBytes base n s).setStack k := by
  induction n with
  | zero => rfl
  | succ n ih => rw [State.loadBytes, ih]; rfl

theorem drawRows_setStack (s : State) (k : Vector Word 16) (x0 left row cy : Nat) (acc : FrameBuffer × Bool) :
    drawRows (s.setStack k) x0 left row cy acc = drawRows s x0 left row cy acc := by
  induction left generalizing row cy acc with
  | zero => rfl
  | succ left ih => rw [drawRows, ih]; rfl

@[simp] theorem State.completeStep_sp (u : State) : u.completeStep.sp = u.sp := by
  rcases completeStep_cases u with ⟨_, h⟩ | ⟨_, h⟩ <;> simp [h]

@[simp] theorem State.completeStep_stack (u : State) : u.completeStep.stack = u.stack := by
  rcases completeStep_cases u with ⟨_, h⟩ | ⟨_, h⟩ <;> simp [h]

theorem State.completeStep_setStack (s : State) (k : Vector Word 16) :
    (s.setStack k).completeStep = s.completeStep.setStack k := by
  cases h : s.fault with
  | none => rw [completeStep_none h, completeStep_none (s := s.setStack k) h]; rfl
  | some f => rw [completeStep_some h, completeStep_some (s := s.setStack k) h]

/-- An instruction that may not write the call stack does not read it either. -/
theorem exec_setStack {i : Instr} {s u : State} (hi : Part.stack ∉ mayWritePart i) (h : exec i s = .next u)
    (k : Vector Word 16) : exec i (s.setStack k) = .next (u.setStack k) := by
  cases i with
  | ret | call => simp [mayWritePart] at hi
  | seImm | sneImm | seReg | skp | sknp =>
    cases h
    exact congrArg Host.Outcome.next (State.setStack_skipIf s k _)
  | drw x y n =>
    cases h
    have hrows := drawRows_setStack (s.setV flagReg 0) k
    have hframe : (s.setStack k).setV flagReg 0 = (s.setV flagReg 0).setStack k := rfl
    simp only [exec, execDrw, hframe, hrows]
    rfl
  | waitKey x =>
    have hkey : (s.setStack k).key = s.key := rfl
    rcases execWaitKey_cases x s with ⟨d, hd, he⟩ | ⟨hd, he⟩ <;> cases he.symm.trans h
    · simp only [exec, execWaitKey, hkey, hd]
      rfl
    · simp only [exec, execWaitKey, hkey, hd]
      rfl
  | ldBcd | storeRegs =>
    cases h
    exact congrArg Host.Outcome.next (State.storeBytes_setStack _ _ s k)
  | loadRegs =>
    cases h
    exact congrArg Host.Outcome.next (State.loadBytes_setStack _ _ s k)
  | _ => cases h; rfl

/-- Execute answers a next state in every state (R124). -/
theorem exec_answers_next (i : Instr) (s : State) : ∃ u, exec i s = .next u := by
  cases i with
  | ret => rcases execRet_cases s with ⟨_, he⟩ | ⟨_, he⟩ <;> exact ⟨_, he⟩
  | call addr => rcases execCall_cases addr s with ⟨_, he⟩ | ⟨_, he⟩ <;> exact ⟨_, he⟩
  | waitKey x => rcases execWaitKey_cases x s with ⟨_, _, he⟩ | ⟨_, he⟩ <;> exact ⟨_, he⟩
  | _ => exact ⟨_, rfl⟩

/-- A return reads the newest entry, which lies below `SP`. -/
theorem execRet_sameLive {s : State} {k : Vector Word 16} (hk : agreeBelow s.sp.val k s.stack) :
    ∃ u u', execRet s = .next u ∧ execRet (s.setStack k) = .next u' ∧ sameLiveState u u' := by
  rcases execRet_cases s with ⟨hsp, he⟩ | ⟨hsp, he⟩ <;>
    rcases execRet_cases (s.setStack k) with ⟨hsp', he'⟩ | ⟨hsp', he'⟩
  · have htop : (s.setStack k).stack[s.sp.val - 1] = s.stack[s.sp.val - 1] := hk.getElem (by omega) (by omega)
    refine ⟨_, _, he, he', ?_⟩
    simp only [State.setStack_sp, htop]
    exact sameLiveState_setStack (hk.mono (Nat.sub_le _ _))
  · exact absurd hsp' hsp.ne'
  · exact absurd hsp hsp'.ne'
  · exact ⟨_, _, he, he', sameLiveState_setStack hk⟩

/-- A call writes the same new entry on top of both stacks. -/
theorem execCall_sameLive (addr : Addr) {s : State} {k : Vector Word 16} (hk : agreeBelow s.sp.val k s.stack) :
    ∃ u u', execCall addr s = .next u ∧ execCall addr (s.setStack k) = .next u' ∧ sameLiveState u u' := by
  rcases execCall_cases addr s with ⟨hsp, he⟩ | ⟨hsp, he⟩ <;>
    rcases execCall_cases addr (s.setStack k) with ⟨hsp', he'⟩ | ⟨hsp', he'⟩
  · exact ⟨_, _, he, he', sameLiveState_setStack (hk.push hsp s.pc)⟩
  · exact absurd hsp' hsp.ne
  · exact absurd hsp hsp'.ne
  · exact ⟨_, _, he, he', sameLiveState_setStack hk⟩

theorem stack_mem_mayWritePart {i : Instr} (h : Part.stack ∈ mayWritePart i) : i = .ret ∨ ∃ addr, i = .call addr := by
  cases i with
  | ret => exact .inl rfl
  | call addr => exact .inr ⟨addr, rfl⟩
  | _ => simp [mayWritePart] at h

/-- Execute keeps the live parts of two states the same: by commuting where the call stack is not written, by the two
lemmas above where it is. -/
theorem exec_sameLive (i : Instr) {s t : State} (h : sameLiveState s t) :
    ∃ u u', exec i s = .next u ∧ exec i t = .next u' ∧ sameLiveState u u' := by
  obtain ⟨k, rfl, hk⟩ := exists_setStack_of_sameLiveState h
  by_cases hi : Part.stack ∈ mayWritePart i
  · rcases stack_mem_mayWritePart hi with rfl | ⟨addr, rfl⟩
    · exact execRet_sameLive hk
    · exact execCall_sameLive addr hk
  · obtain ⟨u, hu⟩ := exec_answers_next i s
    obtain ⟨hsp, hstack⟩ : u.sp = s.sp ∧ u.stack = s.stack := exec_onlyWrites hu .stack hi
    exact ⟨u, u.setStack k, hu, exec_setStack hi hu k, sameLiveState_setStack (by rwa [hsp, hstack])⟩

theorem advance_sameLive {s t : State} (h : sameLiveState s t) : sameLiveState s.advance t.advance := by
  obtain ⟨k, rfl, hk⟩ := exists_setStack_of_sameLiveState h
  exact sameLiveState_setStack (s := s.advance) hk

theorem completeStep_sameLive {s t : State} (h : sameLiveState s t) :
    sameLiveState s.completeStep t.completeStep := by
  obtain ⟨k, rfl, hk⟩ := exists_setStack_of_sameLiveState h
  rw [State.completeStep_setStack]
  exact sameLiveState_setStack (by simpa using hk)

theorem fetchWord_of_sameLive {s t : State} (h : sameLiveState s t) : t.fetchWord = s.fetchWord := by
  obtain ⟨k, rfl, _⟩ := exists_setStack_of_sameLiveState h
  rfl

/-- Steps of two states with the same live parts both go on with the same live parts, or stop alike. -/
theorem step_sameLive {s t : State} (h : sameLiveState s t) :
    (∃ s' t', step s = .next s' ∧ step t = .next t' ∧ sameLiveState s' t') ∨
    (∃ f, step s = .fault f ∧ step t = .fault f) ∨ (∃ r, step s = .refused r ∧ step t = .refused r) := by
  have hfault : t.fault = s.fault := h.1 .fault (by simp)
  have hstopped : t.stopped = s.stopped := h.1 .stopped (by simp)
  cases hf : s.fault with
  | some f => exact .inr (.inl ⟨f, step_halted hf, step_halted (hfault.trans hf)⟩)
  | none =>
    cases hst : s.stopped with
    | true => exact .inr (.inr ⟨_, step_ended hf hst, step_ended (hfault.trans hf) (hstopped.trans hst)⟩)
    | false =>
      obtain ⟨u, u', hu, hu', hlive⟩ := exec_sameLive (decodeWord s.fetchWord) (advance_sameLive h)
      rw [← fetchWord_of_sameLive h] at hu'
      exact .inl ⟨_, _, step_next.mpr ⟨hf, hst, u, hu, rfl⟩,
        step_next.mpr ⟨hfault.trans hf, hstopped.trans hst, u', hu', rfl⟩, completeStep_sameLive hlive⟩

/-- Settles O25: the step relates the two states' outcomes clause by clause. -/
theorem deadStackEntriesAreNeverObserved : Obligations.DeadStackEntriesAreNeverObserved := by
  intro s t h
  rcases step_sameLive h with ⟨s', t', hs, ht, hlive⟩ | ⟨f, hs, ht⟩ | ⟨r, hs, ht⟩
  · simp [hs, ht, hlive]
  · simp [hs, ht]
  · simp [hs, ht]

end Sys2Proof.Machine

/-! # Memory (section 20 of the spec): instructions as bytes, reads after writes, fetch, stores through `I` -/

namespace Sys2Proof

/-! ## Words that no row of the opcode map matches

Each lemma says which digits such a word cannot have, given a row of R96 with the mask and the pattern named. -/

/-- R96 has a row with this mask and this pattern. -/
def hasRow (mask pat : Word) : Bool := opcodeMap.any (fun r => r.mask == mask && r.pat == pat)

section Unmatched

variable {w : Word} {top : BitVec 4}

theorem recognised_of_hasRow {mask pat : Word} (hrow : hasRow mask pat = true) (h : w &&& mask = pat) :
    recognised w = true := by
  simp only [hasRow, List.any_eq_true, Bool.and_eq_true, beq_iff_eq] at hrow
  obtain ⟨r, hr, rfl, rfl⟩ := hrow
  exact List.any_eq_true.mpr ⟨r, hr, by simpa [OpcodeRow.hits] using h⟩

variable (hw : recognised w = false)
include hw

theorem and_ne_of_not_recognised {mask pat : Word} (hrow : hasRow mask pat = true) : w &&& mask ≠ pat :=
  fun h => by simp [recognised_of_hasRow hrow h] at hw

theorem ne_of_not_recognised {pat : Word} (hrow : hasRow 0xFFFF pat = true) : w ≠ pat :=
  fun h => and_ne_of_not_recognised hw hrow ((hit_FFFF w pat).mpr h)

theorem opTop_ne_of_not_recognised (top : BitVec 4) (hrow : hasRow 0xF000 (encXNN top 0 0) = true) :
    (opTop w).toNat ≠ top.toNat := by
  intro ht
  apply and_ne_of_not_recognised hw hrow
  rw [and_F000, BitVec.eq_of_toNat_eq ht]

theorem opNN_ne_of_not_recognised (nn : Byte) (ht : (opTop w).toNat = top.toNat)
    (hrow : hasRow 0xF0FF (encXNN top 0 nn) = true) : opNN w ≠ nn := by
  intro hnn
  apply and_ne_of_not_recognised hw hrow
  rw [and_F0FF, BitVec.eq_of_toNat_eq ht, hnn]

theorem opN_ne_of_not_recognised (n : Fin 16) (ht : (opTop w).toNat = top.toNat)
    (hrow : hasRow 0xF00F (encXYN top 0 0 n) = true) : (opN w).val ≠ n.val := by
  intro hn
  have hlast : opNN w &&& 0x0F = BitVec.ofFin (w := 4) 0 ++ BitVec.ofFin (w := 4) n := by
    apply BitVec.eq_of_toNat_eq
    rw [toNat_opNN_and, hn, toNat_append_eq]
    simp
  apply and_ne_of_not_recognised hw hrow
  rw [and_F00F, BitVec.eq_of_toNat_eq ht, hlast, encXYN]

theorem decode0_of_not_recognised : decode0 w = .unrecognised w := by
  rw [decode0, if_neg (ne_of_not_recognised hw (by decide)), if_neg (ne_of_not_recognised hw (by decide))]

theorem decode5_of_not_recognised (ht : (opTop w).toNat = 0x5) : decode5 w = .unrecognised w := by
  unfold decode5
  split
  next hn => exact absurd hn (opN_ne_of_not_recognised hw (top := 0x5) 0x0 ht (by decide))
  next => rfl

theorem decode8_of_not_recognised (ht : (opTop w).toNat = 0x8) : decode8 w = .unrecognised w := by
  have no (n : Fin 16) := opN_ne_of_not_recognised hw (top := 0x8) n ht
  unfold decode8
  split
  next hn => exact absurd hn (no 0x0 (by decide))
  next hn => exact absurd hn (no 0x1 (by decide))
  next hn => exact absurd hn (no 0x2 (by decide))
  next hn => exact absurd hn (no 0x3 (by decide))
  next hn => exact absurd hn (no 0x4 (by decide))
  next hn => exact absurd hn (no 0x5 (by decide))
  next hn => exact absurd hn (no 0x6 (by decide))
  next hn => exact absurd hn (no 0x7 (by decide))
  next hn => exact absurd hn (no 0xE (by decide))
  next => rfl

theorem decodeE_of_not_recognised (ht : (opTop w).toNat = 0xE) : decodeE w = .unrecognised w := by
  have no (nn : Byte) := opNN_ne_of_not_recognised hw (top := 0xE) nn ht
  rw [decodeE, if_neg (no 0x9E (by decide)), if_neg (no 0xA1 (by decide))]

theorem decodeF_of_not_recognised (ht : (opTop w).toNat = 0xF) : decodeF w = .unrecognised w := by
  have no (nn : Byte) := opNN_ne_of_not_recognised hw (top := 0xF) nn ht
  rw [decodeF, if_neg (no 0x07 (by decide)), if_neg (no 0x0A (by decide)), if_neg (no 0x15 (by decide)),
    if_neg (no 0x18 (by decide)), if_neg (no 0x1E (by decide)), if_neg (no 0x29 (by decide)),
    if_neg (no 0x33 (by decide)), if_neg (no 0x55 (by decide)), if_neg (no 0x65 (by decide))]

/-- A word that no row matches decodes as unrecognised (R98). -/
theorem decodeWord_of_not_recognised : decodeWord w = .unrecognised w := by
  have no := opTop_ne_of_not_recognised hw
  unfold decodeWord
  split
  next => exact decode0_of_not_recognised hw
  next ht => exact absurd ht (no 0x1 (by decide))
  next ht => exact absurd ht (no 0x2 (by decide))
  next ht => exact absurd ht (no 0x3 (by decide))
  next ht => exact absurd ht (no 0x4 (by decide))
  next ht => exact decode5_of_not_recognised hw ht
  next ht => exact absurd ht (no 0x6 (by decide))
  next ht => exact absurd ht (no 0x7 (by decide))
  next ht => exact decode8_of_not_recognised hw ht
  next ht => exact absurd ht (no 0xA (by decide))
  next ht => exact absurd ht (no 0xB (by decide))
  next ht => exact absurd ht (no 0xC (by decide))
  next ht => exact absurd ht (no 0xD (by decide))
  next ht => exact decodeE_of_not_recognised hw ht
  next ht => exact decodeF_of_not_recognised hw ht
  next => rfl

end Unmatched

/-! ## Instructions as bytes -/

/-- Decoding undoes encoding: the fields select the row of the dispatch and give the operands back. -/
theorem decodeWord_encode {i : Instr} (hi : i.wellFormed = true) : decodeWord (encode i) = i := by
  cases i with
  | cls | ret => decide
  | jp | call | ldI | jpV0 => simp [encode, decodeWord]
  | seImm | sneImm | ldImm | addImm | rnd => simp [encode, decodeWord]
  | drw => simp [encode, decodeWord]
  | seReg => simp [encode, decodeWord, decode5]
  | ldReg | orReg | andReg | xorReg | addReg | subReg | shr | subnReg | shl => simp [encode, decodeWord, decode8]
  | skp | sknp => simp [encode, decodeWord, decodeE]
  | getDT | waitKey | setDT | setST | addI | ldFont | ldBcd | storeRegs | loadRegs =>
    simp [encode, decodeWord, decodeF]
  | unrecognised w =>
    have hw : recognised w = false := by simpa [Instr.wellFormed] using hi
    exact decodeWord_of_not_recognised hw

/-- Two bytes at the head of a string are decoded as their word, and the rest is left. -/
theorem decodeBytes_encodeBytes_append (i : Instr) (rest : List Byte) :
    decodeBytes (encodeBytes i ++ rest) = .ok (decodeWord (encode i), rest) := by
  have hword := wordOfBytes_hi_lo (encode i)
  calc decodeBytes (encodeBytes i ++ rest)
      = .ok (decodeWord (wordOfBytes (hiByte (encode i)) (loByte (encode i))), rest) := rfl
    _ = .ok (decodeWord (encode i), rest) := by rw [hword]

theorem decodeBytes_of_length_lt_two {bs : List Byte} (h : bs.length < 2) :
    decodeBytes bs = .error (.truncated bs.length) := by
  match bs with
  | [] | [_] => rfl
  | _ :: _ :: rest => simp at h

/-- Settles O6: the two bytes make the word again, and decoding undoes encoding. -/
theorem bytesOfAnInstructionAreReadBack : Obligations.BytesOfAnInstructionAreReadBack := by
  refine ⟨fun i rest hi => ?_, fun bs => decodeBytes_of_length_lt_two⟩
  rw [decodeBytes_encodeBytes_append, decodeWord_encode hi]

theorem toNat_wordOfBytes (first second : Byte) :
    (wordOfBytes first second).toNat = first.toNat * 256 + second.toNat :=
  toNat_append_eq first second

end Sys2Proof

namespace Sys2Proof.Machine

/-! ## Reads, writes and fetch -/

theorem onlyWrites.writeMem {changed : List Part} {s t : State} (h : onlyWrites changed s t) (a : Nat) (w : Byte)
    (hm : .mem ∈ changed := by simp [mayWritePart]) : onlyWrites changed s (t.writeMem a w) :=
  h.storeBytes a [w] hm

/-- Settles O10, by the law of a read after a write and the frame of a write. -/
theorem memoryReadsWhatWasLastWritten : Obligations.MemoryReadsWhatWasLastWritten := by
  intro s a b w
  have hframe : onlyWrites [.mem] s (s.writeMem a w) := (onlyWrites.refl _ s).writeMem a w
  exact ⟨s.readMem_writeMem a b w, hframe.onlyChanged⟩

/-- Settles O11: an address reads as its reduction does. -/
theorem fetchIsBigEndianModulo4096 : Obligations.FetchIsBigEndianModulo4096 := by
  intro s
  rw [State.fetchWord, toNat_wordOfBytes, State.readMem_mod, State.readMem_mod]

/-! ## Stores through `I` -/

/-- Any address of the cell `k` above `base` reads the stored byte `k`. -/
theorem State.readMem_storeBytes_getElem {base a k : Nat} {bs : List Byte} (s : State) (hlen : bs.length ≤ 4096)
    (hk : k < bs.length) (ha : a % 4096 = (base + k) % 4096) : (State.storeBytes base bs s).readMem a = bs[k] := by
  have hoff : offsetFrom base a = k := by unfold offsetFrom; omega
  simp [State.readMem_storeBytes base bs s a hlen, hoff, hk]

/-- An address of none of the stored cells reads as before. -/
theorem State.readMem_storeBytes_of_ne {base a : Nat} {bs : List Byte} (s : State) (hlen : bs.length ≤ 4096)
    (ha : ∀ k < bs.length, a % 4096 ≠ (base + k) % 4096) : (State.storeBytes base bs s).readMem a = s.readMem a := by
  have hcell : a % 4096 = (base + offsetFrom base a) % 4096 := by unfold offsetFrom; omega
  have hoff : bs.length ≤ offsetFrom base a := Nat.le_of_not_lt fun h => ha _ h hcell
  simp [State.readMem_storeBytes base bs s a hlen, List.getElem?_eq_none hoff]

theorem State.effAddr_zero_add (s : State) (k : Nat) : s.effAddr 0 + k = s.effAddr k := by
  simp [State.effAddr]

theorem length_take_registers (s : State) (x : Reg) : (s.v.toList.take (x.val + 1)).length = x.val + 1 := by
  rw [List.length_take, Vector.length_toList]
  omega

/-- After `FX55` any address of the cell of stored byte `k` reads `V[k]` (R214). -/
theorem readMem_of_exec_storeRegs {x : Reg} {s t : State} (h : exec (.storeRegs x) s = .next t) {r : Reg}
    (hr : r ≤ x) {a : Nat} (ha : a % 4096 = s.effAddr r.val % 4096) : t.readMem a = s.getV r := by
  cases h
  have hlen := length_take_registers s x
  have hrx : r.val ≤ x.val := hr
  rw [← State.effAddr_zero_add] at ha
  rw [State.readMem_storeBytes_getElem s (by omega) (by omega) ha]
  simp [State.getV]

/-- Settles O12: the two bytes fetched are two of the bytes stored. -/
theorem storedCodeIsFetched : Obligations.StoredCodeIsFetched := by
  intro s x k hk p hp
  obtain ⟨t, ht⟩ := exec_answers_next (.storeRegs x) s
  have hnext : (p.toNat + 1) % 4096 = s.effAddr (k + 1) % 4096 := by
    simp only [State.effAddr] at hp ⊢
    omega
  have hfirst : t.readMem p.toNat = s.getV ⟨k, by omega⟩ :=
    readMem_of_exec_storeRegs ht (Fin.le_def.mpr (Nat.le_of_succ_le hk)) hp
  have hsecond : t.readMem (p.toNat + 1) = s.getV ⟨k + 1, by omega⟩ :=
    readMem_of_exec_storeRegs ht (Fin.le_def.mpr hk) hnext
  refine ⟨t, ht, ?_⟩
  simp [State.fetchWord, hfirst, hsecond]

/-- Settles O27: the forms whose frame does not list memory keep it; the other two store through `I`. -/
theorem onlyStoresChangeMemory : Obligations.OnlyStoresChangeMemory := by
  intro i s t a h ha
  by_cases hm : Part.mem ∈ mayWritePart i
  case neg => exact (exec_onlyWrites h).onlyChanged .mem hm a
  cases i with
  | ldBcd x =>
    cases h
    refine State.readMem_storeBytes_of_ne s (by simp [decimalDigits]) fun k hk => ?_
    rw [State.effAddr_zero_add]
    exact ha k hk
  | storeRegs x =>
    cases h
    have hlen := length_take_registers s x
    refine State.readMem_storeBytes_of_ne s (by omega) fun k hk => ?_
    rw [State.effAddr_zero_add]
    exact ha k (hk.trans_eq hlen)
  | _ => simp [mayWritePart] at hm

end Sys2Proof.Machine

/-! # Encoding (section 30 of the spec): decode and encode undo each other, the opcode map, the unrecognised words -/

namespace Sys2Proof

/-- Settles O1, by evaluation. -/
theorem handWrittenWordsDecode : Obligations.HandWrittenWordsDecode := by
  unfold Obligations.HandWrittenWordsDecode
  decide

/-- Settles O2: the fields select the row of the dispatch, and an unmatched word is its own instruction. -/
theorem decodeOfEncodeIsIdentity : Obligations.DecodeOfEncodeIsIdentity :=
  fun _ hi => decodeWord_encode hi

/-! ## Encoding what was decoded

A word whose literal digits are those of a format is the format's word with the fields of the word as operands. -/

section Reencode

variable {w : Word}

theorem encAddr_of_opTop (top : BitVec 4) (ht : (opTop w).toNat = top.toNat) : encAddr top (opAddr w) = w := by
  rw [← BitVec.eq_of_toNat_eq ht, encAddr_fields]

theorem encXNN_of_opTop (top : BitVec 4) (ht : (opTop w).toNat = top.toNat) :
    encXNN top (opX w) (opNN w) = w := by
  rw [← BitVec.eq_of_toNat_eq ht, encXNN_fields]

theorem encXYN_of_opTop (top : BitVec 4) (ht : (opTop w).toNat = top.toNat) :
    encXYN top (opX w) (opY w) (opN w) = w := by
  rw [← BitVec.eq_of_toNat_eq ht, encXYN_fields]

theorem encXYN_of_opTop_opN {top : BitVec 4} (ht : (opTop w).toNat = top.toNat) (n : Fin 16)
    (hn : (opN w).val = n.val) : encXYN top (opX w) (opY w) n = w := by
  rw [← Fin.ext hn, encXYN_of_opTop top ht]

theorem encXNN_of_opTop_opNN {top : BitVec 4} (ht : (opTop w).toNat = top.toNat) {nn : Byte} (hnn : opNN w = nn) :
    encXNN top (opX w) nn = w := by
  rw [← hnn, encXNN_of_opTop top ht]

theorem encode_decode0 (w : Word) : encode (decode0 w) = w := by
  unfold decode0
  split_ifs with hcls hret
  · exact hcls.symm
  · exact hret.symm
  · rfl

theorem encode_decode5 (ht : (opTop w).toNat = 0x5) : encode (decode5 w) = w := by
  unfold decode5
  split
  next hn => exact encXYN_of_opTop_opN (top := 0x5) ht 0x0 hn
  next => rfl

theorem encode_decode8 (ht : (opTop w).toNat = 0x8) : encode (decode8 w) = w := by
  have back := encXYN_of_opTop_opN (top := 0x8) ht
  unfold decode8
  split
  next hn => exact back 0x0 hn
  next hn => exact back 0x1 hn
  next hn => exact back 0x2 hn
  next hn => exact back 0x3 hn
  next hn => exact back 0x4 hn
  next hn => exact back 0x5 hn
  next hn => exact back 0x6 hn
  next hn => exact back 0x7 hn
  next hn => exact back 0xE hn
  next => rfl

theorem encode_decodeE (ht : (opTop w).toNat = 0xE) : encode (decodeE w) = w := by
  unfold decodeE
  split_ifs with hskp hsknp
  · exact encXNN_of_opTop_opNN (top := 0xE) ht hskp
  · exact encXNN_of_opTop_opNN (top := 0xE) ht hsknp
  · rfl

theorem encode_decodeF (ht : (opTop w).toNat = 0xF) : encode (decodeF w) = w := by
  unfold decodeF
  split_ifs
  case neg => rfl
  all_goals exact encXNN_of_opTop_opNN (top := 0xF) ht ‹_›

theorem encode_decodeWord (w : Word) : encode (decodeWord w) = w := by
  unfold decodeWord
  split
  next => exact encode_decode0 w
  next ht => exact encAddr_of_opTop 0x1 ht
  next ht => exact encAddr_of_opTop 0x2 ht
  next ht => exact encXNN_of_opTop 0x3 ht
  next ht => exact encXNN_of_opTop 0x4 ht
  next ht => exact encode_decode5 ht
  next ht => exact encXNN_of_opTop 0x6 ht
  next ht => exact encXNN_of_opTop 0x7 ht
  next ht => exact encode_decode8 ht
  next ht => exact encAddr_of_opTop 0xA ht
  next ht => exact encAddr_of_opTop 0xB ht
  next ht => exact encXNN_of_opTop 0xC ht
  next ht => exact encXYN_of_opTop 0xD ht
  next ht => exact encode_decodeE ht
  next ht => exact encode_decodeF ht
  next => rfl

end Reencode

/-! ## The rows of the opcode map

The mnemonic a word decodes to depends on the digits its row's mask leaves and on no others, so a word that matches a
row has the mnemonic of the row's pattern. -/

section Rows

variable {w p : Word}

theorem mnemonic_decodeWord_congr_opTop (ht : (opTop w).toNat = (opTop p).toNat)
    (hp : (opTop p).toNat ∈ [0x1, 0x2, 0x3, 0x4, 0x6, 0x7, 0xA, 0xB, 0xC, 0xD]) :
    (decodeWord w).mnemonic = (decodeWord p).mnemonic := by
  simp only [List.mem_cons, List.not_mem_nil, or_false] at hp
  rcases hp with hp | hp | hp | hp | hp | hp | hp | hp | hp | hp <;> simp [decodeWord, ht, hp, Instr.mnemonic]

theorem mnemonic_decode5_congr (hn : (opN w).val = (opN p).val) : (decode5 w).mnemonic = (decode5 p).mnemonic := by
  unfold decode5
  rw [hn]
  split <;> rfl

theorem mnemonic_decode8_congr (hn : (opN w).val = (opN p).val) : (decode8 w).mnemonic = (decode8 p).mnemonic := by
  unfold decode8
  rw [hn]
  split <;> rfl

theorem mnemonic_decodeE_congr (hnn : opNN w = opNN p) : (decodeE w).mnemonic = (decodeE p).mnemonic := by
  unfold decodeE
  rw [hnn]
  split_ifs <;> rfl

theorem mnemonic_decodeF_congr (hnn : opNN w = opNN p) : (decodeF w).mnemonic = (decodeF p).mnemonic := by
  unfold decodeF
  rw [hnn]
  split_ifs <;> rfl

theorem mnemonic_decodeWord_congr_opN (ht : (opTop w).toNat = (opTop p).toNat) (hn : (opN w).val = (opN p).val)
    (hp : (opTop p).toNat ∈ [0x5, 0x8]) : (decodeWord w).mnemonic = (decodeWord p).mnemonic := by
  simp only [List.mem_cons, List.not_mem_nil, or_false] at hp
  rcases hp with hp | hp
  · simpa [decodeWord, ht, hp] using mnemonic_decode5_congr hn
  · simpa [decodeWord, ht, hp] using mnemonic_decode8_congr hn

theorem mnemonic_decodeWord_congr_opNN (ht : (opTop w).toNat = (opTop p).toNat) (hnn : opNN w = opNN p)
    (hp : (opTop p).toNat ∈ [0xE, 0xF]) : (decodeWord w).mnemonic = (decodeWord p).mnemonic := by
  simp only [List.mem_cons, List.not_mem_nil, or_false] at hp
  rcases hp with hp | hp
  · simpa [decodeWord, ht, hp] using mnemonic_decodeE_congr hnn
  · simpa [decodeWord, ht, hp] using mnemonic_decodeF_congr hnn

/-- What makes the pattern of a row stand for every word that matches the row: the mask leaves the digits that the
dispatch of R94 looks at. -/
def OpcodeRow.LeavesDispatch (r : OpcodeRow) : Prop :=
  r.mask = 0xFFFF ∨
  (r.mask = 0xF000 ∧ (opTop r.pat).toNat ∈ [0x1, 0x2, 0x3, 0x4, 0x6, 0x7, 0xA, 0xB, 0xC, 0xD]) ∨
  (r.mask = 0xF00F ∧ (opTop r.pat).toNat ∈ [0x5, 0x8]) ∨
  (r.mask = 0xF0FF ∧ (opTop r.pat).toNat ∈ [0xE, 0xF])

theorem leavesDispatch_of_mem_opcodeMap : ∀ r ∈ opcodeMap, r.LeavesDispatch ∧ r.pat &&& r.mask = r.pat := by
  unfold OpcodeRow.LeavesDispatch
  decide

theorem mnemonic_decodeWord_pat : ∀ r ∈ opcodeMap, (decodeWord r.pat).mnemonic = r.mnemonic := by decide

theorem mnemonic_decodeWord_of_hit {r : OpcodeRow} (hr : r ∈ opcodeMap) (h : w &&& r.mask = r.pat) :
    (decodeWord w).mnemonic = r.mnemonic := by
  rw [← mnemonic_decodeWord_pat r hr]
  obtain ⟨hform, hpat⟩ := leavesDispatch_of_mem_opcodeMap r hr
  rcases hform with hm | ⟨hm, hp⟩ | ⟨hm, hp⟩ | ⟨hm, hp⟩ <;> rw [hm] at h hpat
  · rw [(hit_FFFF _ _).mp h]
  · exact mnemonic_decodeWord_congr_opTop ((hit_F000 _ _ _ ⟨hpat, rfl⟩).mp h) hp
  · obtain ⟨ht, hn⟩ := (hit_F00F _ _ _ _ ⟨hpat, rfl, rfl⟩).mp h
    exact mnemonic_decodeWord_congr_opN ht hn hp
  · obtain ⟨ht, hnn⟩ := (hit_F0FF _ _ _ _ ⟨hpat, rfl, rfl⟩).mp h
    exact mnemonic_decodeWord_congr_opNN ht hnn hp

theorem exists_row_of_recognised (hw : recognised w = true) : ∃ r ∈ opcodeMap, w &&& r.mask = r.pat := by
  simpa [recognised, OpcodeRow.hits] using hw

theorem mnemonic_ne_unrecognised : ∀ r ∈ opcodeMap, r.mnemonic ≠ "unrecognised_word" := by decide

/-- No two rows share a mnemonic, so a word cannot match two rows (R97). -/
theorem nodup_opcodeMap_mnemonic : (opcodeMap.map OpcodeRow.mnemonic).Nodup := by decide

theorem hit_of_mnemonic_decodeWord {r : OpcodeRow} (hr : r ∈ opcodeMap)
    (h : (decodeWord w).mnemonic = r.mnemonic) : w &&& r.mask = r.pat := by
  cases hw : recognised w with
  | true =>
    obtain ⟨r', hr', hit⟩ := exists_row_of_recognised hw
    have hmn : r'.mnemonic = r.mnemonic := (mnemonic_decodeWord_of_hit hr' hit).symm.trans h
    rwa [← List.inj_on_of_nodup_map nodup_opcodeMap_mnemonic hr' hr hmn]
  | false =>
    rw [decodeWord_of_not_recognised hw] at h
    exact absurd h.symm (mnemonic_ne_unrecognised r hr)

/-- Settles O4: a matching word decodes to its row, and the decoded row is the one matched since mnemonics differ. -/
theorem dispatchAgreesWithTheOpcodeMap : Obligations.DispatchAgreesWithTheOpcodeMap :=
  fun _ _ hr => ⟨mnemonic_decodeWord_of_hit hr, hit_of_mnemonic_decodeWord hr⟩

theorem wellFormed_of_mnemonic_ne {i : Instr} (h : i.mnemonic ≠ "unrecognised_word") : i.wellFormed = true := by
  cases i with
  | unrecognised => exact absurd rfl h
  | _ => rfl

theorem wellFormed_decodeWord (w : Word) : (decodeWord w).wellFormed = true := by
  cases hw : recognised w with
  | true =>
    obtain ⟨r, hr, hit⟩ := exists_row_of_recognised hw
    apply wellFormed_of_mnemonic_ne
    rw [mnemonic_decodeWord_of_hit hr hit]
    exact mnemonic_ne_unrecognised r hr
  | false => simp [decodeWord_of_not_recognised hw, Instr.wellFormed, hw]

/-- Settles O3: no dispatch drops a bit, and what a row matches is not kept as unrecognised. -/
theorem everyWordIsTheEncodingOfItsInstruction : Obligations.EveryWordIsTheEncodingOfItsInstruction :=
  fun w => ⟨encode_decodeWord w, wellFormed_decodeWord w⟩

end Rows

/-! ## The unrecognised words (R98)

One class per secondary dispatch, said by the number the word stands for. -/

section Unrecognised

variable {w : Word}

theorem decode0_eq_unrecognised_iff :
    decode0 w = .unrecognised w ↔ w.toNat ≠ 0x00E0 ∧ w.toNat ≠ 0x00EE := by
  simp only [decode0, ← BitVec.toNat_inj]
  split_ifs <;> simp_all

theorem opNN_eq_iff (w : Word) (nn : Byte) : opNN w = nn ↔ w.toNat % 256 = nn.toNat := by
  rw [← BitVec.toNat_inj, toNat_opNN]

theorem decode5_eq_unrecognised_iff : decode5 w = .unrecognised w ↔ w.toNat % 16 ≠ 0 := by
  unfold decode5
  rw [val_opN]
  split <;> simp_all

theorem decode8_eq_unrecognised_iff : decode8 w = .unrecognised w ↔
    w.toNat % 16 = 0x8 ∨ w.toNat % 16 = 0x9 ∨ w.toNat % 16 = 0xA ∨ w.toNat % 16 = 0xB ∨ w.toNat % 16 = 0xC ∨
      w.toNat % 16 = 0xD ∨ w.toNat % 16 = 0xF := by
  unfold decode8
  rw [val_opN]
  split
  case h_10 =>
    simp only [imp_false, true_iff] at *
    omega
  all_goals simp [*]

theorem decodeE_eq_unrecognised_iff :
    decodeE w = .unrecognised w ↔ w.toNat % 256 ≠ 0x9E ∧ w.toNat % 256 ≠ 0xA1 := by
  simp only [decodeE, opNN_eq_iff]
  split_ifs <;> simp_all

theorem decodeF_eq_unrecognised_iff : decodeF w = .unrecognised w ↔
    w.toNat % 256 ≠ 0x07 ∧ w.toNat % 256 ≠ 0x0A ∧ w.toNat % 256 ≠ 0x15 ∧ w.toNat % 256 ≠ 0x18 ∧
      w.toNat % 256 ≠ 0x1E ∧ w.toNat % 256 ≠ 0x29 ∧ w.toNat % 256 ≠ 0x33 ∧ w.toNat % 256 ≠ 0x55 ∧
      w.toNat % 256 ≠ 0x65 := by
  simp only [decodeF, opNN_eq_iff]
  split_ifs <;> simp_all

/-- Settles O5: the classes with a secondary dispatch are those dispatches', and 9NNN has no instruction. -/
theorem unrecognisedWordsAreTheListedClasses : Obligations.UnrecognisedWordsAreTheListedClasses := by
  intro w
  have hlt := w.isLt
  unfold decodeWord
  rw [toNat_opTop]
  -- The arms named here are the tops 0, 5, 8, E and F, each with its own dispatch, and the top without an arm.
  split
  case h_1 ht => simp [ht, decode0_eq_unrecognised_iff]
  case h_6 ht => simp [ht, decode5_eq_unrecognised_iff]
  case h_9 ht => simp [ht, decode8_eq_unrecognised_iff]
  case h_14 ht => simp [ht, decodeE_eq_unrecognised_iff]
  case h_15 ht => simp [ht, decodeF_eq_unrecognised_iff]
  case h_16 =>
    simp only [imp_false] at *
    have h9 : w.toNat / 4096 = 0x9 := by omega
    simp [h9]
  all_goals simp [*]

end Unrecognised

end Sys2Proof

/-! # The instruction cycle (section 40 of the spec): the step, the frame, runs, the tick -/

namespace Sys2Proof.Machine

/-! ## The step -/

theorem exec_stopIn {i : Instr} {s t : State} (h : exec i s = .next t) : t.stopIn = s.stopIn :=
  exec_onlyWrites h .stopIn (by cases i <;> simp [mayWritePart])

theorem exec_stopped {i : Instr} {s t : State} (h : exec i s = .next t) : t.stopped = s.stopped :=
  exec_onlyWrites h .stopped (by cases i <;> simp [mayWritePart])

/-- A step answers a next state exactly when it is enabled (R120, R124). -/
theorem step_answers_next_iff {s : State} : (∃ t, step s = .next t) ↔ s.fault = none ∧ s.stopped = false := by
  constructor
  · rintro ⟨t, h⟩
    obtain ⟨hf, hs, _⟩ := step_next.mp h
    exact ⟨hf, hs⟩
  · rintro ⟨hf, hs⟩
    obtain ⟨u, hu⟩ := exec_answers_next (decodeWord s.fetchWord) s.advance
    exact ⟨u.completeStep, step_next.mpr ⟨hf, hs, u, hu, rfl⟩⟩

/-- Settles O14: execute always answers, so enabledness alone decides whether a step does. -/
theorem executeAlwaysAnswersANextState : Obligations.ExecuteAlwaysAnswersANextState :=
  ⟨exec_answers_next, fun _ => step_answers_next_iff⟩

/-- Settles O13: the step completes the state execute leaves, and the three clauses are the three ways to complete. -/
theorem stepRunsTheDecodedInstruction : Obligations.StepRunsTheDecodedInstruction := by
  rintro s _ hf hs rfl
  have hstep (t : State) (ht : exec (decodeWord s.fetchWord) s.advance = .next t) : step s = .next t.completeStep :=
    step_next.mpr ⟨hf, hs, t, ht, rfl⟩
  refine ⟨fun t ht htf he => ?tick, fun t ht htf he => ?noTick, fun t ht htf => ?fault⟩
  case tick => rw [hstep t ht, completeStep_none htf, finishStep_eq, if_pos he]
  case noTick => rw [hstep t ht, completeStep_none htf, finishStep_eq, if_neg he]
  case fault =>
    obtain ⟨f, hfault⟩ := Option.ne_none_iff_exists'.mp htf
    rw [hstep t ht, completeStep_some hfault]

/-! ## The frame over one step -/

/-- A step that raises no fault ends the frame, with the tick and the look at `stop`, or moves the counter on (R128,
R129, R131). -/
theorem step_frame_cases {s t : State} (h : step s = .next t) (ht : t.fault = none) :
    (s.fcnt + 1 = Config.ipf ∧ t.fcnt = 0 ∧ t.frames = s.frames + 1 ∧ t.stopped = s.stopIn) ∨
    (s.fcnt + 1 ≠ Config.ipf ∧ t.fcnt = s.fcnt + 1 ∧ t.frames = s.frames ∧ t.stopped = false) := by
  obtain ⟨_, hs, u, hu, rfl⟩ := step_next.mp h
  have hfcnt : u.fcnt = s.fcnt := exec_fcnt (s := s.advance) hu
  have hframes : u.frames = s.frames := exec_frames (s := s.advance) hu
  have hstopIn : u.stopIn = s.stopIn := exec_stopIn (s := s.advance) hu
  have hstopped : u.stopped = false := (exec_stopped (s := s.advance) hu).trans hs
  rw [State.completeStep_fault] at ht
  rw [completeStep_none ht, finishStep_eq, ← hfcnt, ← hframes, ← hstopIn]
  by_cases he : u.fcnt + 1 = Config.ipf
  · exact .inl (by simp [he, tick, hstopped])
  · exact .inr (by simp [he, hstopped])

/-- A step that raises a fault leaves the host's run going: no tick follows it (R233). -/
theorem step_stopped_of_fault {s t : State} (h : step s = .next t) (ht : t.fault ≠ none) : t.stopped = false := by
  obtain ⟨_, hs, u, hu, rfl⟩ := step_next.mp h
  rw [State.completeStep_fault] at ht
  obtain ⟨f, hfault⟩ := Option.ne_none_iff_exists'.mp ht
  rw [completeStep_some hfault]
  exact (exec_stopped hu).trans hs

/-- Settles O20: neither a fault nor a step inside the frame ends the run, so the frame has ended. -/
theorem stopEndsRunsOnlyAtFrameBoundaries : Obligations.StopEndsRunsOnlyAtFrameBoundaries := by
  intro s t h hstop
  have ht : t.fault = none := by
    by_contra hne
    simp [step_stopped_of_fault h hne] at hstop
  rcases step_frame_cases h ht with ⟨_, hc, hfr, hst⟩ | ⟨_, _, _, hst⟩
  · exact ⟨hst.symm.trans hstop, hfr, hc, ht⟩
  · simp [hst] at hstop

/-- One step that raises no fault adds one to the steps counted by frames and counter (R128). -/
theorem step_adds_one {s t : State} (hlt : s.fcnt < Config.ipf) (h : step s = .next t) (ht : t.fault = none) :
    t.frames * Config.ipf + t.fcnt = s.frames * Config.ipf + s.fcnt + 1 ∧ t.fcnt < Config.ipf := by
  rcases step_frame_cases h ht with ⟨he, hc, hfr, _⟩ | ⟨hne, hc, hfr, _⟩
  · rw [hc, hfr, Nat.succ_mul]
    omega
  · rw [hc, hfr]
    omega

/-! ## Runs -/

theorem run_succ_of_next {s u : State} (h : step s = .next u) (n : Nat) :
    Sys2Proof.core.run (n + 1) s = Sys2Proof.core.run n u := by
  have hcore : Sys2Proof.core.step s = .next u := h
  simp only [Host.Core.run, hcore]

theorem run_succ_of_fault {s : State} {f : Fault} (h : step s = .fault f) (n : Nat) :
    Sys2Proof.core.run (n + 1) s = .fault f := by
  have hcore : Sys2Proof.core.step s = .fault f := h
  simp only [Host.Core.run, hcore]

theorem run_succ_of_refused {s : State} {r : Refusal} (h : step s = .refused r) (n : Nat) :
    Sys2Proof.core.run (n + 1) s = .refused r := by
  have hcore : Sys2Proof.core.step s = .refused r := h
  simp only [Host.Core.run, hcore]

/-- A run of one step or more goes on from the state its first step answers. -/
theorem exists_step_of_runs_succ {n : Nat} {s t : State} (h : runs (n + 1) s t) :
    ∃ u, step s = .next u ∧ runs n u t := by
  cases hs : step s with
  | next u => exact ⟨u, rfl, (run_succ_of_next hs n).symm.trans h⟩
  | fault f => cases (run_succ_of_fault hs n).symm.trans h
  | refused r => cases (run_succ_of_refused hs n).symm.trans h

/-- Settles O15: the first step already stops the run. -/
theorem haltedMachineTakesNoStep : Obligations.HaltedMachineTakesNoStep :=
  ⟨fun _ _ n hf => run_succ_of_fault (step_halted hf) n, fun _ n hf hs => run_succ_of_refused (step_ended hf hs) n⟩

/-- A run that ends with no fault latched began with none: a latched fault stops the next step (R234). -/
theorem runs_fault_eq_none {n : Nat} {s t : State} (h : runs n s t) (ht : t.fault = none) : s.fault = none := by
  cases n with
  | zero => cases h; exact ht
  | succ n =>
    obtain ⟨u, hu, _⟩ := exists_step_of_runs_succ h
    exact (step_next.mp hu).1

/-- Settles O18, by induction on the number of steps, each of which adds one. -/
theorem stepsAndTicksAddUp : Obligations.StepsAndTicksAddUp := by
  intro n
  induction n with
  | zero =>
    intro s t hlt h _
    cases h
    exact ⟨rfl, hlt⟩
  | succ n ih =>
    intro s t hlt h ht
    obtain ⟨u, hu, hrest⟩ := exists_step_of_runs_succ h
    obtain ⟨hone, hult⟩ := step_adds_one hlt hu (runs_fault_eq_none hrest ht)
    obtain ⟨hmany, htlt⟩ := ih u t hult hrest ht
    exact ⟨by omega, htlt⟩

/-! ## The tick -/

/-- A tick writes the keypad latch, the timers and the frame number (R129). -/
theorem onlyWrites.tick {changed : List Part} {s t : State} (h : onlyWrites changed s t) (keys : BitVec 16)
    (hkey : .key ∈ changed := by simp) (hdt : .dt ∈ changed := by simp) (hst : .st ∈ changed := by simp)
    (hfr : .frames ∈ changed := by simp) : onlyWrites changed s (tick keys t) := by
  intro p hp
  cases p with
  | key => exact absurd hkey hp
  | dt => exact absurd hdt hp
  | st => exact absurd hst hp
  | frames => exact absurd hfr hp
  | _ => exact h _ hp

/-- Settles O16, by the law of one timer and the frame of the tick. -/
theorem tickLatchesKeysAndCountsDown : Obligations.TickLatchesKeysAndCountsDown := by
  intro keys s
  have hframe : onlyWrites [.key, .dt, .st, .frames] s (tick keys s) := (onlyWrites.refl _ s).tick keys
  exact ⟨fun _ _ => rfl, toNat_timerTick s.dt, toNat_timerTick s.st, beq_self_eq_true _, hframe.onlyChanged⟩

end Sys2Proof.Machine

/-! # Control transfer (section 41 of the spec): jumps, call and return -/

namespace Sys2Proof.Machine

/-! ## The frame of a transfer that raises no fault -/

/-- A part that was listed and kept its value after all need not be listed. -/
theorem onlyWrites.erase {changed : List Part} {s t : State} (h : onlyWrites changed s t) {p : Part}
    (hp : p.kept s t) : onlyWrites (changed.erase p) s t := by
  intro q hq
  by_cases hqp : q = p
  · exact hqp ▸ hp
  · exact h q fun hmem => hq ((List.mem_erase_of_ne hqp).mpr hmem)

/-! ## Jumps -/

/-- Settles O29: the target is `addr` zero-extended, and the frame of `1NNN` lists `pc` alone. -/
theorem jumpGoesToItsAddress : Obligations.JumpGoesToItsAddress :=
  fun addr _ => ⟨_, rfl, toNat_addrWord addr, (exec_onlyWrites (i := .jp addr) rfl).onlyChanged⟩

/-- The target of `BNNN` is the exact sum: it is at most 0x10FE (R144). -/
theorem toNat_addrWord_add_byteWord (addr : Addr) (b : Byte) :
    (addrWord addr + byteWord b).toNat = addr.toNat + b.toNat := by
  have hfits : (addrWord addr).toNat + (byteWord b).toNat < 2 ^ 16 := by
    rw [toNat_addrWord, toNat_byteWord]
    omega
  rw [BitVec.toNat_add_of_lt hfits, toNat_addrWord, toNat_byteWord]

/-- Settles O30: the sum fits, and the frame of `BNNN` lists `pc` alone. -/
theorem offsetJumpAddsV0 : Obligations.OffsetJumpAddsV0 :=
  fun addr s => ⟨_, rfl, toNat_addrWord_add_byteWord addr (s.getV 0),
    (exec_onlyWrites (i := .jpV0 addr) rfl).onlyChanged⟩

/-! ## Call and return -/

/-- What an entry of the call stack reads as after one entry was written, beyond the sixteenth included. -/
theorem stack_getD_set (stack : Vector Word 16) {n : Nat} (hn : n < 16) (w : Word) (k : Nat) :
    (stack.set n w).toList.getD k 0 = if k = n then w else stack.toList.getD k 0 := by
  by_cases hk : k = n
  · subst hk
    simp [hn]
  · simp [List.getD_eq_getElem?_getD, Vector.toList_set, hk, Ne.symm hk]

/-- Settles O31: with room on the stack the call is the push and the jump of R143, and its latch stays. -/
theorem callPushesAdvancedPc : Obligations.CallPushesAdvancedPc := by
  intro addr s hroom
  rcases execCall_cases addr s with ⟨_, he⟩ | ⟨hfull, _⟩
  · have hnew := stack_getD_set s.stack hroom s.pc
    refine ⟨_, he, toNat_addrWord addr, rfl, ?newest, fun k hk => ?older, ?frame⟩
    case newest => rw [hnew, if_pos rfl]
    case older => rw [hnew, if_neg hk]
    case frame => exact ((exec_onlyWrites (i := .call addr) he).erase (p := .fault) rfl).onlyChanged
  · exact absurd hfull hroom.ne

/-- Settles O32: with an entry on the stack the return is the pop of R141, and its latch stays. -/
theorem returnPopsNewestEntry : Obligations.ReturnPopsNewestEntry := by
  intro s hentry
  rcases execRet_cases s with ⟨_, he⟩ | ⟨hempty, _⟩
  · have hlt : s.sp.val - 1 < 16 := by omega
    refine ⟨_, he, by simp [hlt], rfl, rfl, ?frame⟩
    exact ((exec_onlyWrites (i := .ret) he).erase (p := .fault) rfl).onlyChanged
  · exact absurd hempty hentry.ne'

/-- Settles O34: the return pops the entry at the SP the call found, which is live and holds the `pc` of the call. -/
theorem callThenReturnComesBack : Obligations.CallThenReturnComesBack := by
  intro addr s u hroom
  obtain ⟨t, ht, _, hsp, hnewest, _⟩ := callPushesAdvancedPc addr s hroom
  refine ⟨t, ht, fun husp hlive => ?_⟩
  have hu : u.sp.val = s.sp.val + 1 := by rw [husp, hsp]
  obtain ⟨w, hw, hpc, hwsp, _⟩ := returnPopsNewestEntry u (by omega)
  refine ⟨w, hw, ?_, Fin.ext (by omega)⟩
  calc w.pc = u.stack.toList.getD s.sp.val 0 := by rw [hpc, hu, Nat.add_sub_cancel]
    _ = t.stack.toList.getD s.sp.val 0 := hlive _ (by omega)
    _ = s.pc := hnewest

end Sys2Proof.Machine

/-! # Conditional skips (section 42 of the spec) -/

namespace Sys2Proof.Machine

/-- The rule the five skips share (R150): with a test that decides `p`, only `pc` may change, by 2 more when `p`. -/
theorem exec_skip {i : Instr} {s : State} {c : Bool} {p : Prop} [Decidable p]
    (hexec : exec i s = .next (s.skipIf c)) (hc : c = true ↔ p) :
    ∃ t, exec i s = .next t ∧ onlyChanged [.pc] s t ∧ t.pc = if p then s.pc + 2 else s.pc := by
  refine ⟨_, hexec, ((onlyWrites.refl [.pc] s).skipIf c (by simp)).onlyChanged, ?_⟩
  rw [State.skipIf_pc]
  exact if_congr hc rfl rfl

/-- Settles O35: each skip is the shared rule, given that its Boolean test decides the condition of R151 to R155. -/
theorem skipsAddTwoWhenTheirConditionHolds : Obligations.SkipsAddTwoWhenTheirConditionHolds := by
  intro x y nn s
  refine ⟨?seImm, ?sneImm, ?seReg, ?skp, ?sknp⟩
  case seImm => exact exec_skip rfl beq_iff_eq
  case sneImm => exact exec_skip rfl bne_iff_ne
  case seReg => exact exec_skip rfl beq_iff_eq
  case skp => exact exec_skip rfl (by rw [val_lowDigit])
  case sknp => exact exec_skip rfl (by rw [val_lowDigit, Bool.not_eq_true'])

end Sys2Proof.Machine

/-! # Immediates and random (section 43 of the spec) -/

namespace Sys2Proof.Machine

/-- The rule of the instructions that only write one register: the byte written, and every other register and part. -/
theorem exec_setV {i : Instr} {s : State} {x : Reg} {b : Byte} (hexec : exec i s = .next (s.setV x b)) :
    ∃ t, exec i s = .next t ∧ t.getV x = b ∧ (∀ r : Reg, r ≠ x → t.getV r = s.getV r) ∧ onlyChanged [.v] s t :=
  ⟨_, hexec, State.getV_setV_same s x b, fun _ hr => State.getV_setV_other s hr b,
    ((onlyWrites.refl [.v] s).setV x b (by simp)).onlyChanged⟩

/-- Settles O36: `6XNN` writes one register, with `nn`. -/
theorem loadImmediateSetsItsRegister : Obligations.LoadImmediateSetsItsRegister :=
  fun _ _ _ => exec_setV rfl

/-- Settles O37: `7XNN` writes one register, with the sum of two bytes, which wraps. -/
theorem addImmediateWrapsWithoutFlag : Obligations.AddImmediateWrapsWithoutFlag := by
  intro x nn s
  obtain ⟨t, ht, hx, hothers⟩ := exec_setV (i := .addImm x nn) (s := s) rfl
  exact ⟨t, ht, by rw [hx, BitVec.toNat_add], hothers⟩

/-- Settles O38: `addr` is zero-extended, and the frame of `ANNN` lists `I` alone. -/
theorem loadIndexSetsI : Obligations.LoadIndexSetsI :=
  fun addr _ => ⟨_, rfl, toNat_addrWord addr, (exec_onlyWrites (i := .ldI addr) rfl).onlyChanged⟩

/-- A masked byte has no bit outside its mask (R163). -/
theorem and_and_not_mask (mask b : Byte) : mask &&& b &&& ~~~mask = 0 := by
  rw [BitVec.and_comm mask b, BitVec.and_assoc, BitVec.and_not_self]
  exact BitVec.and_zero

/-- Settles O39: `CXNN` writes the masked byte over the state that the draw left, in which the registers are as before;
its frame lists them and the number of draws. -/
theorem randomIsMaskedByItsImmediate : Obligations.RandomIsMaskedByItsImmediate := by
  intro x nn s
  refine ⟨s.drawRandom.2.setV x (nn &&& Config.randomByte s.draws), rfl, State.getV_setV_same _ x _, rfl, ?masked,
    fun r hr => ?others, (exec_onlyWrites (i := .rnd x nn) rfl).onlyChanged⟩
  case masked => rw [State.getV_setV_same, and_and_not_mask]
  case others => rw [State.getV_setV_other _ hr, State.getV_drawRandom]

end Sys2Proof.Machine

/-! # Register-to-register operations (section 44 of the spec) -/

namespace Sys2Proof.Machine

/-! ## Flags and results as numbers -/

@[simp] theorem toNat_flagByte (c : Bool) : (flagByte c).toNat = c.toNat := by cases c <;> rfl

theorem toNat_noBorrowFlag (a b : Byte) : (noBorrowFlag a b).toNat = noBorrow a b := by
  rw [noBorrowFlag, toNat_flagByte, noBorrow]
  by_cases h : a.toNat < b.toNat <;> simp [h]

theorem toNat_lowBitFlag (a : Byte) : (lowBitFlag a).toNat = a.toNat % 2 := by
  rw [lowBitFlag, toNat_flagByte, BitVec.getLsbD, Nat.toNat_testBit, Nat.pow_zero, Nat.div_one]

theorem toNat_highBitFlag (a : Byte) : (highBitFlag a).toNat = a.toNat / 128 := by
  rw [highBitFlag, toNat_flagByte, BitVec.getLsbD, Nat.toNat_testBit]
  omega

/-- The difference of two bytes in the form of R175 and R177, `trunc_8(a - b + 256)`. -/
theorem toNat_sub_byte (a b : Byte) : (a - b).toNat = (a.toNat + 256 - b.toNat) % 256 := by
  rw [BitVec.toNat_sub]
  omega

/-! ## One write, no flag -/

/-- Settles O40: `8XY0` writes one register, with the byte of the other. -/
theorem copyMovesRegister : Obligations.CopyMovesRegister :=
  fun _ _ _ => exec_setV rfl

/-- The rule of the logical operations: one register is written, with an operation `op` that acts on each bit as `f`. -/
theorem exec_bitwise {i : Instr} {s : State} {x y : Reg} (op : Byte → Byte → Byte) {f : Bool → Bool → Bool}
    (hexec : exec i s = .next (s.setV x (op (s.getV x) (s.getV y))))
    (hbit : ∀ (a b : Byte) (k : Nat), (op a b).getLsbD k = f (a.getLsbD k) (b.getLsbD k)) :
    ∃ t, exec i s = .next t ∧ onlyChanged [.v] s t ∧ (∀ r : Reg, r ≠ x → t.getV r = s.getV r) ∧
      ∀ k : Nat, k < 8 → (t.getV x).getLsbD k = f ((s.getV x).getLsbD k) ((s.getV y).getLsbD k) := by
  obtain ⟨t, ht, hx, hothers, hframe⟩ := exec_setV hexec
  exact ⟨t, ht, hframe, hothers, fun k _ => by rw [hx, hbit]⟩

/-- Settles O41: or, and, exclusive or of two bytes act bit by bit. -/
theorem logicalOperationsActBitwiseWithoutFlag : Obligations.LogicalOperationsActBitwiseWithoutFlag := by
  intro x y s
  refine ⟨?or, ?and, ?xor⟩
  case or => exact exec_bitwise (· ||| ·) rfl fun _ _ _ => BitVec.getLsbD_or
  case and => exact exec_bitwise (· &&& ·) rfl fun _ _ _ => BitVec.getLsbD_and
  case xor => exact exec_bitwise (· ^^^ ·) rfl fun _ _ _ => BitVec.getLsbD_xor

/-! ## Result and flag: two writes in order -/

/-- The rule of the instructions that write two registers, `p` and then `q`: the later write stays, the earlier one
stays if the registers differ (R169, decision D6). -/
theorem exec_setV_setV {i : Instr} {s : State} {p q : Reg} {a b : Byte}
    (hexec : exec i s = .next ((s.setV p a).setV q b)) :
    ∃ t, exec i s = .next t ∧ t.getV q = b ∧ (p ≠ q → t.getV p = a) ∧
      (∀ r : Reg, r ≠ p → r ≠ q → t.getV r = s.getV r) ∧ onlyChanged [.v] s t := by
  refine ⟨_, hexec, State.getV_setV_same _ q b, fun hpq => ?earlier, fun r hp hq => ?others, ?frame⟩
  case earlier => rw [State.getV_setV_other _ hpq, State.getV_setV_same]
  case others => rw [State.getV_setV_other _ hq, State.getV_setV_other _ hp]
  case frame => exact (((onlyWrites.refl [.v] s).setV p a (by simp)).setV q b (by simp)).onlyChanged

/-- Settles O42: the flag is written first, so with `x = 0xF` the low byte of the sum stays. -/
theorem addSetsCarry : Obligations.AddSetsCarry := by
  intro x y s
  obtain ⟨t, ht, hsum, hcarry, hothers, hframe⟩ := exec_setV_setV (i := .addReg x y) (s := s) rfl
  refine ⟨t, ht, by rw [hsum, BitVec.toNat_add], fun hx => ?carry, fun r hrx hrF => hothers r hrF hrx, hframe⟩
  rw [← flagReg, hcarry hx.symm, carryFlag, flagByte]
  exact if_congr decide_eq_true_iff rfl rfl

/-- Settles O45: the flag is written last, so with `x = 0xF` the bit shifted out stays. -/
theorem shiftsMoveOnePlaceAndKeepTheBit : Obligations.ShiftsMoveOnePlaceAndKeepTheBit := by
  intro x y s
  constructor
  · obtain ⟨t, ht, hbit, hhalf, hothers, hframe⟩ := exec_setV_setV (i := .shr x y) (s := s) rfl
    refine ⟨t, ht, hbit ▸ toNat_lowBitFlag _, fun hx => ?_, hothers, hframe⟩
    rw [hhalf hx, BitVec.toNat_ushiftRight, Nat.shiftRight_eq_div_pow, Nat.pow_one]
  · obtain ⟨t, ht, hbit, hdouble, hothers, hframe⟩ := exec_setV_setV (i := .shl x y) (s := s) rfl
    refine ⟨t, ht, hbit ▸ toNat_highBitFlag _, fun hx => ?_, hothers, hframe⟩
    rw [hdouble hx, BitVec.toNat_shiftLeft, Nat.shiftLeft_eq, Nat.pow_one]

/-! ## Subtraction: the operands are read after the flag is written -/

/-- What an operand of a subtraction reads as, once the flag stands in `V[0xF]` (R169, decision D6). -/
theorem State.getV_setV_flagReg (s : State) (flag : Byte) (r : Reg) :
    ((s.setV flagReg flag).getV r).toNat = if r = 0xF then flag.toNat else (s.getV r).toNat := by
  rw [State.getV_setV, apply_ite BitVec.toNat, flagReg]

/-- The rule of `8XY5` and `8XY7`: the no-borrow flag of `V[a] - V[b]` is written, then the difference as the operands
read after it goes to `V[x]`. In its four cases neither operand is the flag register, `a` is, `b` is, both are. -/
theorem exec_subtract {i : Instr} {s s1 : State} {x a b : Reg}
    (hs1 : s1 = s.setV flagReg (noBorrowFlag (s.getV a) (s.getV b)))
    (hexec : exec i s = .next (s1.setV x (s1.getV a - s1.getV b))) :
    ∃ t, exec i s = .next t ∧
      (a ≠ 0xF → b ≠ 0xF → (t.getV x).toNat = ((s.getV a).toNat + 256 - (s.getV b).toNat) % 256) ∧
      (a = 0xF → b ≠ 0xF → (t.getV x).toNat = (noBorrow (s.getV a) (s.getV b) + 256 - (s.getV b).toNat) % 256) ∧
      (a ≠ 0xF → b = 0xF → (t.getV x).toNat = ((s.getV a).toNat + 256 - noBorrow (s.getV a) (s.getV b)) % 256) ∧
      (a = 0xF → b = 0xF → t.getV x = 0) ∧
      (x ≠ 0xF → (t.getV 0xF).toNat = noBorrow (s.getV a) (s.getV b)) ∧
      (∀ r : Reg, r ≠ x → r ≠ 0xF → t.getV r = s.getV r) ∧ onlyChanged [.v] s t := by
  have hread (r : Reg) :
      (s1.getV r).toNat = if r = 0xF then noBorrow (s.getV a) (s.getV b) else (s.getV r).toNat := by
    rw [hs1, State.getV_setV_flagReg, toNat_noBorrowFlag]
  obtain ⟨t, ht, hdiff, hflag, hothers, hframe⟩ := exec_setV_setV (hs1 ▸ hexec)
  rw [← hs1] at hdiff
  have hnat : (t.getV x).toNat = ((s1.getV a).toNat + 256 - (s1.getV b).toNat) % 256 := by
    rw [hdiff, toNat_sub_byte]
  refine ⟨t, ht, fun ha hb => ?neither, fun ha hb => ?minuend, fun ha hb => ?subtrahend, fun ha hb => ?both,
    fun hx => ?written, fun r hrx hrF => hothers r hrF hrx, hframe⟩
  case neither => rw [hnat, hread, hread, if_neg ha, if_neg hb]
  case minuend => rw [hnat, hread, hread, if_pos ha, if_neg hb]
  case subtrahend => rw [hnat, hread, hread, if_neg ha, if_pos hb]
  case both =>
    rw [hdiff, ha, hb]
    exact BitVec.sub_self _
  case written => rw [← toNat_noBorrowFlag, ← hflag hx.symm, flagReg]

/-- Settles O43: `8XY5` subtracts `V[y]` from `V[x]`; with `x = 0xF` the result is what `V[0xF]` ends with. -/
theorem subtractSetsNoBorrow : Obligations.SubtractSetsNoBorrow := by
  intro x y s
  obtain ⟨t, ht, hneither, hminuend, hsubtrahend, hboth, hrest⟩ :=
    exec_subtract (i := .subReg x y) (s := s) (x := x) (a := x) (b := y) rfl rfl
  have hresult (hx : x = 0xF) : t.getV x = t.getV 0xF := congrArg t.getV hx
  exact ⟨t, ht, hneither, fun hx hy => hresult hx ▸ hminuend hx hy, hsubtrahend,
    fun hx hy => hresult hx ▸ hboth hx hy, hrest⟩

/-- Settles O44: `8XY7` subtracts `V[x]` from `V[y]`; with `x = 0xF` the result is what `V[0xF]` ends with. -/
theorem reverseSubtractSetsNoBorrow : Obligations.ReverseSubtractSetsNoBorrow := by
  intro x y s
  obtain ⟨t, ht, hneither, hminuend, hsubtrahend, hboth, hrest⟩ :=
    exec_subtract (i := .subnReg x y) (s := s) (x := x) (a := y) (b := x) rfl rfl
  have hresult (hx : x = 0xF) : t.getV x = t.getV 0xF := congrArg t.getV hx
  exact ⟨t, ht, fun hx hy => hneither hy hx, fun hx hy => hresult hx ▸ hsubtrahend hy hx,
    fun hx hy => hminuend hy hx, fun hx hy => hresult hx ▸ hboth hy hx, hrest⟩

end Sys2Proof.Machine

/-! # The framebuffer (section 45 of the spec): clear and draw -/

namespace Sys2Proof.Machine

/-- Settles O46: the new framebuffer is the unlit one, and the frame of `00E0` lists `FB` alone. -/
theorem clearUnlightsEveryPixel : Obligations.ClearUnlightsEveryPixel :=
  fun _ => ⟨_, rfl, fbPixel_fbClear, (exec_onlyWrites (i := .cls) rfl).onlyChanged⟩

/-! ## The draw, seen from a pixel and from the flag register

A draw exclusive-ors every pixel of the grid with one bit, `drawnBit`, and its flag says whether `spriteMeets` holds of
lit pixels. Both obligations about `DXYN` follow from these two rules. -/

/-- The bit that R191 draws at a pixel: the sprite's bit inside the clipped rectangle, no bit outside it. -/
def drawnBit (x y : Reg) (n : Fin 16) (s : State) (cx cy : Nat) : Bool :=
  decide ((startRow (s.getV y) ≤ cy ∧ cy < startRow (s.getV y) + n.val ∧ cy < 32) ∧
    (startColumn (s.getV x) ≤ cx ∧ cx < startColumn (s.getV x) + 8 ∧ cx < 64)) &&
  spriteBit s (cy - startRow (s.getV y)) (cx - startColumn (s.getV x))

/-- Some set bit of the sprite falls, inside the clipped rectangle, on a pixel that is lit or, for `lit = false`,
unlit. -/
def spriteMeets (x y : Reg) (n : Fin 16) (s : State) (lit : Bool) : Prop :=
  ∃ r c : Nat, r < n.val ∧ startRow (s.getV y) + r < 32 ∧ c < 8 ∧ startColumn (s.getV x) + c < 64 ∧
    spriteBit s r c = true ∧ s.pixel (startColumn (s.getV x) + c) (startRow (s.getV y) + r) = lit

section Draw

variable {x y : Reg} {n : Fin 16} {s t : State}

theorem drawnBit_inside {r c : Nat} (hr : r < n.val) (hrow : startRow (s.getV y) + r < 32) (hc : c < 8)
    (hcol : startColumn (s.getV x) + c < 64) :
    drawnBit x y n s (startColumn (s.getV x) + c) (startRow (s.getV y) + r) = spriteBit s r c := by
  simp [drawnBit, hr, hrow, hc, hcol]

theorem drawnBit_outside {cx cy : Nat}
    (h : ¬ ((startRow (s.getV y) ≤ cy ∧ cy < startRow (s.getV y) + n.val ∧ cy < 32) ∧
      (startColumn (s.getV x) ≤ cx ∧ cx < startColumn (s.getV x) + 8 ∧ cx < 64))) :
    drawnBit x y n s cx cy = false := by
  rw [drawnBit, decide_eq_false h, Bool.false_and]

theorem fbPixel_below (f : FrameBuffer) (cx : Nat) {cy : Nat} (h : 32 ≤ cy) : fbPixel f cx cy = false :=
  dif_neg h.not_gt

/-- Every pixel is exclusive-ored with the bit drawn there. -/
theorem exec_drw_pixel (h : exec (.drw x y n) s = .next t) (cx cy : Nat) :
    t.pixel cx cy = Bool.xor (s.pixel cx cy) (drawnBit x y n s cx cy) := by
  cases h
  by_cases hcy : cy < 32
  case neg =>
    rw [drawnBit_outside (by omega), Bool.xor_false]
    exact (fbPixel_below _ cx (by omega)).trans (fbPixel_below _ cx (by omega)).symm
  refine (fbPixel_drawRows _ _ _ _ _ _ cx cy hcy).trans ?_
  split
  case isTrue hin =>
    rw [drawnBit, decide_eq_true (by omega), Bool.true_and, Nat.zero_add]
    rfl
  case isFalse hout =>
    rw [drawnBit_outside (by omega), Bool.xor_false]
    rfl

/-- The flag register is left with a flag that says whether the sprite met a lit pixel. -/
theorem exec_drw_flag (h : exec (.drw x y n) s = .next t) :
    ∃ hit : Bool, t.getV 0xF = flagByte hit ∧ (hit = true ↔ spriteMeets x y n s true) := by
  cases h
  refine ⟨_, State.getV_setV_same _ flagReg _, (hit_drawRows _ _ _ _ _ _).trans ?_⟩
  constructor
  · rintro (hnone | ⟨px, py, hy, hyn, hpy, hx, hx8, hpx, hbit, hlit⟩)
    · cases hnone
    · obtain ⟨r, rfl⟩ := Nat.exists_eq_add_of_le hy
      obtain ⟨c, rfl⟩ := Nat.exists_eq_add_of_le hx
      rw [Nat.zero_add, Nat.add_sub_cancel_left, Nat.add_sub_cancel_left] at hbit
      exact ⟨r, c, by omega, hpy, by omega, hpx, hbit, hlit⟩
  · rintro ⟨r, c, hr, hrow, hc, hcol, hbit, hlit⟩
    refine .inr ⟨_, _, Nat.le_add_right _ r, by omega, hrow, Nat.le_add_right _ c, by omega, hcol, ?_, hlit⟩
    rw [Nat.zero_add, Nat.add_sub_cancel_left, Nat.add_sub_cancel_left]
    exact hbit

theorem flagByte_eq_one_iff {b : Bool} : flagByte b = 1 ↔ b = true := by cases b <;> decide

theorem exec_drw_flag_eq_one_iff (h : exec (.drw x y n) s = .next t) :
    t.getV 0xF = 1 ↔ spriteMeets x y n s true := by
  obtain ⟨hit, hflag, hmeets⟩ := exec_drw_flag h
  rw [hflag, flagByte_eq_one_iff, hmeets]

theorem exec_drw_flag_eq_zero (h : exec (.drw x y n) s = .next t) (hmiss : ¬ spriteMeets x y n s true) :
    t.getV 0xF = 0 := by
  obtain ⟨hit, hflag, hmeets⟩ := exec_drw_flag h
  rw [hflag, Bool.eq_false_of_not_eq_true (mt hmeets.mp hmiss)]
  rfl

end Draw

/-- Settles O47: the clipped rectangle is where `drawnBit` is the sprite's bit, and `spriteMeets` is about its pixels. -/
theorem drawMatchesTheClosedForm : Obligations.DrawMatchesTheClosedForm := by
  rintro x y n s x0 y0 R C hx0 hy0 rfl rfl
  obtain ⟨t, ht⟩ := exec_answers_next (.drw x y n) s
  obtain rfl : x0 = startColumn (s.getV x) := hx0
  obtain rfl : y0 = startRow (s.getV y) := hy0
  refine ⟨t, ht, fun r c hr hc => ?inside, fun cx cy hout => ?outside, fun ⟨r, c, hr, hc, hbit, hlit⟩ => ?met,
    fun hunlit => ?missed, fun r hr => onlyListedRegistersAreWritten _ s t r ht hr, (exec_onlyWrites ht).onlyChanged⟩
  case inside => rw [exec_drw_pixel ht, drawnBit_inside (by omega) (by omega) (by omega) (by omega)]
  case outside => rw [exec_drw_pixel ht, drawnBit_outside (by omega), Bool.xor_false]
  case met =>
    exact (exec_drw_flag_eq_one_iff ht).mpr ⟨r, c, by omega, by omega, by omega, by omega, hbit, hlit⟩
  case missed =>
    refine exec_drw_flag_eq_zero ht fun ⟨r, c, hr, hrow, hc, hcol, hbit, hlit⟩ => ?_
    rw [hunlit r c (by omega) (by omega) hbit] at hlit
    cases hlit

/-! ## The same draw again -/

section Redraw

variable {x y : Reg} {n : Fin 16} {s t : State} (hx : x ≠ 0xF) (hy : y ≠ 0xF) (h : exec (.drw x y n) s = .next t)
include h

/-- A draw leaves `I` and memory, so the sprite is the same after it (decision D17). -/
theorem exec_drw_spriteBit (r c : Nat) : spriteBit t r c = spriteBit s r c := by
  have hframe := exec_onlyWrites h
  have hireg : t.ireg = s.ireg := hframe .ireg (by simp [mayWritePart])
  have hmem : t.mem = s.mem := hframe .mem (by simp [mayWritePart])
  simp only [spriteBit, State.readMem, State.effAddr, hireg, hmem]

theorem exec_drw_getV {r : Reg} (hr : r ≠ 0xF) : t.getV r = s.getV r :=
  onlyListedRegistersAreWritten _ s t r h hr

include hx hy

/-- With no coordinate in the flag register the second draw draws the same bits. -/
theorem exec_drw_drawnBit (cx cy : Nat) : drawnBit x y n t cx cy = drawnBit x y n s cx cy := by
  simp only [drawnBit, exec_drw_getV h hx, exec_drw_getV h hy, exec_drw_spriteBit h]

/-- A draw turns over the pixels its set bits fall on: the next one meets a lit pixel where it met an unlit one. -/
theorem exec_drw_spriteMeets_lit : spriteMeets x y n t true ↔ spriteMeets x y n s false := by
  simp only [spriteMeets, exec_drw_getV h hx, exec_drw_getV h hy, exec_drw_spriteBit h]
  refine exists_congr fun r => exists_congr fun c => and_congr_right fun hr => and_congr_right fun hrow =>
    and_congr_right fun hc => and_congr_right fun hcol => and_congr_right fun hbit => ?_
  rw [exec_drw_pixel h, drawnBit_inside hr hrow hc hcol, hbit, Bool.xor_true, Bool.not_eq_true']

/-- Two draws of the same bits cancel. -/
theorem exec_drw_exec_drw_fb {u : State} (hu : exec (.drw x y n) t = .next u) : u.fb = s.fb := by
  refine fb_ext fun cx _ cy _ => ?_
  calc u.pixel cx cy = Bool.xor (t.pixel cx cy) (drawnBit x y n s cx cy) := by
        rw [exec_drw_pixel hu, exec_drw_drawnBit hx hy h]
    _ = s.pixel cx cy := by rw [exec_drw_pixel h, Bool.xor_assoc, Bool.xor_self, Bool.xor_false]

end Redraw

/-- Settles O48: the bits drawn are the same both times, so they cancel, and the first draw turned over the pixels that
the second one meets. -/
theorem drawingTwiceRestoresTheScreen : Obligations.DrawingTwiceRestoresTheScreen := by
  intro x y n s hx hy
  obtain ⟨t, ht⟩ := exec_answers_next (.drw x y n) s
  obtain ⟨u, hu⟩ := exec_answers_next (.drw x y n) t
  exact ⟨t, u, ht, hu, exec_drw_exec_drw_fb hx hy ht hu,
    (exec_drw_flag_eq_one_iff hu).trans (exec_drw_spriteMeets_lit hx hy ht)⟩

end Sys2Proof.Machine

/-! # Timers and keypad (section 46 of the spec) -/

namespace Sys2Proof.Machine

/-! ## The timers -/

/-- Settles O49: `FX07` writes one register, with `DT`. -/
theorem readTimerCopiesDT : Obligations.ReadTimerCopiesDT :=
  fun _ _ => exec_setV rfl

theorem State.toneOn_iff (s : State) : s.toneOn = true ↔ s.st ≠ 0 := bne_iff_ne

/-- Settles O50: each form writes its timer with `V[x]` and its frame lists that timer alone; port `st_out` is `ST`. -/
theorem setTimersCopyTheRegister : Obligations.SetTimersCopyTheRegister := by
  intro x s
  refine ⟨⟨_, rfl, rfl, ?frameDT⟩, ⟨_, rfl, rfl, rfl, State.toneOn_iff _, ?frameST⟩⟩
  case frameDT => exact (exec_onlyWrites (i := .setDT x) rfl).onlyChanged
  case frameST => exact (exec_onlyWrites (i := .setST x) rfl).onlyChanged

/-! ## Waiting for a key -/

theorem exec_waitKey_of_some {s : State} {k : Nat} (h : firstHeldKey s.key = some k) (x : Reg) :
    exec (.waitKey x) s = .next (s.setV x (BitVec.ofNat 8 k)) := by
  rcases execWaitKey_cases x s with ⟨j, hj, he⟩ | ⟨hnone, _⟩
  · cases hj.symm.trans h
    exact he
  · cases hnone.symm.trans h

theorem exec_waitKey_of_none {s : State} (h : firstHeldKey s.key = none) (x : Reg) :
    exec (.waitKey x) s = .next (s.setPc (s.pc - 2)) := by
  rcases execWaitKey_cases x s with ⟨k, hk, _⟩ | ⟨_, he⟩
  · cases hk.symm.trans h
  · exact he

/-- Settles O51: the two clauses are the two answers of the scan; a key's number fits its byte. -/
theorem waitForKeyTakesLowestOrRewinds : Obligations.WaitForKeyTakesLowestOrRewinds := by
  intro x s
  refine ⟨fun k hk hheld hlower => ?held, fun hnone => ?noneHeld⟩
  case held =>
    have hfirst : firstHeldKey s.key = some k := firstHeldKey_some.mpr ⟨hk, hheld, hlower⟩
    have hfits : (BitVec.ofNat 8 k).toNat = k := Nat.mod_eq_of_lt (by omega)
    obtain ⟨t, ht, hx, hothers⟩ := exec_setV (exec_waitKey_of_some hfirst x)
    exact ⟨t, ht, by rw [hx, hfits], hothers⟩
  case noneHeld =>
    exact ⟨_, exec_waitKey_of_none (firstHeldKey_none.mpr hnone) x, rfl,
      ((onlyWrites.refl [.pc] s).setPc _ (by simp)).onlyChanged⟩

/-! ## A whole step of waiting -/

/-- The end of a completed step writes the frame counter, what a tick changes, and the ended mark (R125, R131). -/
theorem onlyWrites.finishStep {changed : List Part} {s t : State} (h : onlyWrites changed s t)
    (hend : [.fcnt, .key, .dt, .st, .frames, .stopped] ⊆ changed := by simp) : onlyWrites changed s t.finishStep := by
  intro p hp
  cases p with
  | fcnt | key | dt | st | frames | stopped => exact absurd (hend (by simp)) hp
  | _ => exact h _ hp

/-- Undoing the advance gives back the whole state, also where `pc` wraps (R201, decision D2). -/
theorem State.setPc_advance_pc_sub_two (s : State) : s.advance.setPc (s.advance.pc - 2) = s := by
  rw [State.advance_pc, BitVec.add_sub_cancel]
  rfl

/-- With no key held a step of `FX0A` is the end of a step and nothing before it. -/
theorem step_waitKey_of_none {s : State} {x : Reg} (hf : s.fault = none) (hs : s.stopped = false)
    (hw : decodeWord s.fetchWord = .waitKey x) (hkey : firstHeldKey s.key = none) : step s = .next s.finishStep := by
  have hexec : exec (decodeWord s.fetchWord) s.advance = .next s := by
    rw [hw, exec_waitKey_of_none (s := s.advance) hkey, State.setPc_advance_pc_sub_two]
  exact step_next.mpr ⟨hf, hs, s, hexec, (completeStep_none hf).symm⟩

/-- Settles O52: the step is the end of a step, which leaves `pc` and all but the listed parts. -/
theorem waitingStepChangesNothingButTheFrame : Obligations.WaitingStepChangesNothingButTheFrame :=
  fun _ s hf hs hw hnone => ⟨s.finishStep, step_waitKey_of_none hf hs hw (firstHeldKey_none.mpr hnone),
    State.finishStep_pc s, (onlyWrites.refl _ s).finishStep.onlyChanged⟩

end Sys2Proof.Machine

/-! # Index register and memory transfer (section 47 of the spec) -/

namespace Sys2Proof.Machine

/-! ## The index register -/

/-- Settles O53: the sum of two words wraps, and the frame of `FX1E` lists `I` alone. -/
theorem addToIndexWrapsWithoutFlag : Obligations.AddToIndexWrapsWithoutFlag := by
  intro x s
  refine ⟨_, rfl, ?sum, (exec_onlyWrites (i := .addI x) rfl).onlyChanged⟩
  case sum => rw [State.setI_ireg, BitVec.toNat_add, toNat_byteWord]

/-- Settles O54: the glyph of the low digit, and the frame of `FX29` lists `I` alone. -/
theorem fontAddressIsFiveBytesPerDigit : Obligations.FontAddressIsFiveBytesPerDigit := by
  intro x s
  refine ⟨_, rfl, ?glyph, (exec_onlyWrites (i := .ldFont x) rfl).onlyChanged⟩
  case glyph => rw [State.setI_ireg, toNat_glyphAddress, val_lowDigit]

/-! ## Stores -/

/-- After `FX33` the byte at `I + k` is decimal digit `k`, the hundreds first: a digit fits its byte (R213). -/
theorem toNat_readMem_of_exec_ldBcd {x : Reg} {s t : State} (h : exec (.ldBcd x) s = .next t) {k d : Nat}
    (hdigit : (decimalDigits (s.getV x))[k]? = some (BitVec.ofNat 8 d)) (hd : d ≤ 9) :
    (t.readMem (s.effAddr k)).toNat = d := by
  cases h
  obtain ⟨hk, hget⟩ := List.getElem?_eq_some_iff.mp hdigit
  have hcell : s.effAddr k % 4096 = (s.effAddr 0 + k) % 4096 := by rw [State.effAddr_zero_add]
  rw [State.readMem_storeBytes_getElem s (by simp [decimalDigits]) hk hcell, hget, BitVec.toNat_ofNat]
  omega

/-- Settles O55: the three digits make up `V[x]`, and the other cells are those that O27 keeps. -/
theorem decimalDigitsAreStored : Obligations.DecimalDigitsAreStored := by
  intro x s
  obtain ⟨t, ht⟩ := exec_answers_next (.ldBcd x) s
  have hV := (s.getV x).isLt
  have hundreds : (t.readMem (s.effAddr 0)).toNat = (s.getV x).toNat / 100 :=
    toNat_readMem_of_exec_ldBcd ht rfl (by omega)
  have tens : (t.readMem (s.effAddr 1)).toNat = (s.getV x).toNat / 10 % 10 :=
    toNat_readMem_of_exec_ldBcd ht rfl (by omega)
  have ones : (t.readMem (s.effAddr 2)).toNat = (s.getV x).toNat % 10 :=
    toNat_readMem_of_exec_ldBcd ht rfl (by omega)
  exact ⟨t, ht, by omega, by omega, by omega, by omega, fun a ha => onlyStoresChangeMemory _ s t a ht ha,
    (exec_onlyWrites ht).onlyChanged⟩

/-- Settles O56: every stored byte, the cells that O27 keeps, and the frame of `FX55`. -/
theorem registersAreStoredFromI : Obligations.RegistersAreStoredFromI := by
  intro x s
  obtain ⟨t, ht⟩ := exec_answers_next (.storeRegs x) s
  exact ⟨t, ht, fun r hr => readMem_of_exec_storeRegs ht hr rfl, fun a ha => onlyStoresChangeMemory _ s t a ht ha,
    (exec_onlyWrites ht).onlyChanged⟩

/-! ## Loads -/

/-- After `FX65` a register up to `V[x]` holds its byte from `I` upward (R215). -/
theorem getV_of_exec_loadRegs {x : Reg} {s t : State} (h : exec (.loadRegs x) s = .next t) {r : Reg} (hr : r ≤ x) :
    t.getV r = s.readMem (s.effAddr r.val) := by
  cases h
  have hrx : r.val ≤ x.val := hr
  rw [State.getV_loadBytes _ _ _ (by omega), if_pos (by omega), State.effAddr_zero_add]

/-- Settles O57: the loaded registers, the registers above, which O26 keeps, and the frame of `FX65`. -/
theorem registersAreLoadedFromI : Obligations.RegistersAreLoadedFromI := by
  intro x s
  obtain ⟨t, ht⟩ := exec_answers_next (.loadRegs x) s
  exact ⟨t, ht, fun r hr => getV_of_exec_loadRegs ht hr,
    fun r hr => onlyListedRegistersAreWritten _ s t r ht (not_le.mpr hr), (exec_onlyWrites ht).onlyChanged⟩

/-- Settles O58: `FX55` keeps `I`, so the later state loads from the addresses of the store, and their bytes are the
stored ones. -/
theorem storedRegistersComeBack : Obligations.StoredRegistersComeBack := by
  intro x s u
  obtain ⟨t, ht⟩ := exec_answers_next (.storeRegs x) s
  refine ⟨t, ht, fun hireg hmem => ?_⟩
  obtain ⟨w, hw⟩ := exec_answers_next (.loadRegs x) u
  have hkept : t.ireg = s.ireg := exec_onlyWrites ht .ireg (by simp [mayWritePart])
  have haddr (k : Nat) : u.effAddr k = s.effAddr k := by rw [State.effAddr, State.effAddr, hireg, hkept]
  refine ⟨w, hw, fun r hr => ?_⟩
  calc w.getV r = u.readMem (u.effAddr r.val) := getV_of_exec_loadRegs hw hr
    _ = t.readMem (s.effAddr r.val) := by rw [hmem, haddr]
    _ = s.getV r := readMem_of_exec_storeRegs ht hr rfl

end Sys2Proof.Machine

/-! # Unrecognised words (section 48 of the spec) -/

namespace Sys2Proof.Machine

/-- A step of an unrecognised word is the advance and the end of a step, with nothing between them (R220). -/
theorem step_unrecognised {s : State} {w : Word} (hf : s.fault = none) (hs : s.stopped = false)
    (hw : decodeWord s.fetchWord = .unrecognised w) : step s = .next s.advance.finishStep := by
  have hexec : exec (decodeWord s.fetchWord) s.advance = .next s.advance := by
    rw [hw]
    rfl
  exact step_next.mpr ⟨hf, hs, s.advance, hexec, (completeStep_none (s := s.advance) hf).symm⟩

/-- Settles O59: execute answers the state itself, so the step writes what the advance and the end of a step write. -/
theorem unrecognisedWordsDoNothing : Obligations.UnrecognisedWordsDoNothing := by
  refine ⟨fun w s => ⟨s, rfl, (onlyWrites.refl [] s).onlyChanged⟩, fun w s hf hs hw => ?wholeStep⟩
  case wholeStep =>
    have hadvance : onlyWrites [.pc, .fcnt, .key, .dt, .st, .frames, .stopped] s s.advance :=
      (onlyWrites.refl _ s).setPc (s.pc + 2)
    exact ⟨_, step_unrecognised hf hs hw, rfl, hadvance.finishStep.onlyChanged⟩

end Sys2Proof.Machine

/-! # Exceptions (section 60 of the spec): the two stack faults -/

namespace Sys2Proof.Machine

/-! ## What raises a fault, and what the fault writes -/

/-- Entering a fault writes the latch (R233). -/
theorem onlyWrites.latch {changed : List Part} {s t : State} (h : onlyWrites changed s t) (f : Fault)
    (hf : .fault ∈ changed := by simp) : onlyWrites changed s { t with fault := some f } := by
  intro p hp
  cases p with
  | fault => exact absurd hf hp
  | _ => exact h _ hp

theorem exec_call_of_full {s : State} (hsp : s.sp.val = 16) (addr : Addr) :
    exec (.call addr) s = .next { s with fault := some .stackOverflow } := by
  rcases execCall_cases addr s with ⟨hroom, _⟩ | ⟨_, he⟩
  · exact absurd hsp hroom.ne
  · exact he

theorem exec_ret_of_empty {s : State} (hsp : s.sp.val = 0) :
    exec .ret s = .next { s with fault := some .stackUnderflow } := by
  rcases execRet_cases s with ⟨hentry, _⟩ | ⟨_, he⟩
  · exact absurd hsp hentry.ne'
  · exact he

/-- The two fatal conditions of R230: which fault execute raises, at which `SP`, and by which instruction. -/
def faultCondition (f : Fault) (i : Instr) (s : State) : Prop :=
  (f = .stackOverflow ∧ s.sp.val = 16 ∧ ∃ addr, i = .call addr) ∨
  (f = .stackUnderflow ∧ s.sp.val = 0 ∧ i = .ret)

/-- Execute latches a fault under its condition alone, and then it has written the latch alone (R230, R233). -/
theorem exec_raises {i : Instr} {s u : State} {f : Fault} (hs : s.fault = none) (h : exec i s = .next u)
    (hu : u.fault = some f) : u = { s with fault := some f } ∧ faultCondition f i s := by
  by_cases hlatch : Part.fault ∈ mayWritePart i
  case neg =>
    have hkept : u.fault = s.fault := exec_onlyWrites h .fault hlatch
    simp [hkept, hs] at hu
  cases i with
  | call addr =>
    rcases execCall_cases addr s with ⟨_, he⟩ | ⟨hfull, he⟩ <;> cases he.symm.trans h
    · simp [hs] at hu
    · cases hu
      exact ⟨rfl, .inl ⟨rfl, hfull, addr, rfl⟩⟩
  | ret =>
    rcases execRet_cases s with ⟨_, he⟩ | ⟨hempty, he⟩ <;> cases he.symm.trans h
    · simp [hs] at hu
    · cases hu
      exact ⟨rfl, .inr ⟨rfl, hempty, rfl⟩⟩
  | _ => simp [mayWritePart] at hlatch

/-! ## The statements -/

/-- Settles O33: on a full or an empty stack execute answers the state with the latch set. -/
theorem stackFaultsSetTheLatchAlone : Obligations.StackFaultsSetTheLatchAlone := by
  have hframe (s : State) (f : Fault) : onlyChanged [.fault] s { s with fault := some f } :=
    ((onlyWrites.refl _ s).latch f).onlyChanged
  exact ⟨fun addr s hfull => ⟨_, exec_call_of_full hfull addr, rfl, hframe s _⟩,
    fun s hempty => ⟨_, exec_ret_of_empty hempty, rfl, hframe s _⟩⟩

/-- Settles O22: a halted step ends as execute left it, which is the advanced state with the latch set. -/
theorem faultingStepWritesOnlyPcAndLatch : Obligations.FaultingStepWritesOnlyPcAndLatch := by
  intro s t f h ht
  obtain ⟨hf, _, u, hu, rfl⟩ := step_next.mp h
  rw [State.completeStep_fault] at ht
  rw [completeStep_some ht]
  obtain ⟨rfl, hcondition⟩ := exec_raises (s := s.advance) hf hu ht
  have hadvance : onlyWrites [.pc, .fault] s s.advance := (onlyWrites.refl _ s).setPc (s.pc + 2)
  exact ⟨rfl, (hadvance.latch f).onlyChanged, hcondition⟩

end Sys2Proof.Machine

/-! # Reset and hazards (section 70 of the spec): loading the image, the first instruction -/

namespace Sys2Proof.Machine

/-! ## Loading -/

/-- The part of an image that is copied fits above 0x200 (R6). -/
theorem length_take_romMax_le (rom : List Byte) : (rom.take Config.romMax).length ≤ 3584 :=
  List.length_take_le _ _

/-- Byte `k` of the image stands at 0x200 + k, if it is one of the first 3584 (R273). -/
theorem readMem_boot_image {rom : List Byte} {k : Nat} (hk : k < rom.length) (hmax : k < 3584) :
    (boot rom).readMem (0x200 + k) = rom[k] := by
  have hfits := length_take_romMax_le rom
  have hcopied : k < (rom.take Config.romMax).length := by
    rw [List.length_take]
    exact lt_min hmax hk
  calc (boot rom).readMem (0x200 + k)
      = (rom.take Config.romMax)[k] := State.readMem_storeBytes_getElem State.reset (by omega) hcopied rfl
    _ = rom[k] := List.getElem_take

/-- Below 0x200 and above the image memory reads as after reset: no byte copied lands there (R272, R273). -/
theorem readMem_boot_outside {rom : List Byte} {a : Nat} (ha : a < 4096) (hout : a < 0x200 ∨ 0x200 + rom.length ≤ a) :
    (boot rom).readMem a = State.reset.readMem a := by
  have hfits := length_take_romMax_le rom
  have hshort : (rom.take Config.romMax).length ≤ rom.length := List.length_take_le' _ _
  refine State.readMem_storeBytes_of_ne State.reset (by omega) fun k hk => ?_
  have hbase : Config.progBase = 0x200 := rfl
  omega

/-- Loading writes memory alone (R273). -/
theorem boot_onlyWrites (rom : List Byte) : onlyWrites [.mem] State.reset (boot rom) :=
  (onlyWrites.refl _ State.reset).storeBytes _ _

/-- Settles O8: the image, what lies outside it, and the frame of the load. -/
theorem romIsCopiedVerbatimAndTruncated : Obligations.RomIsCopiedVerbatimAndTruncated := by
  refine fun rom => ⟨fun k hk hmax => ?image, fun a => readMem_boot_outside, (boot_onlyWrites rom).onlyChanged⟩
  case image => rw [readMem_boot_image hk hmax, List.getD_eq_getElem _ _ hk]

/-! ## The first instruction -/

/-- An enabled step as the equation of R125, with no case on what execute answers. -/
theorem step_enabled {s : State} (hf : s.fault = none) (hs : s.stopped = false) :
    step s = afterExec (exec (decodeWord s.fetchWord) s.advance) := by
  simp [step, State.barred, hf, hs]

/-- The first fetch reads the first two bytes of the image, which stand at the reset value of `pc` (R62, R271). -/
theorem fetchWord_boot (first second : Byte) (rest : List Byte) :
    (boot (first :: second :: rest)).fetchWord = first ++ second := by
  have hpc : (boot (first :: second :: rest)).pc = State.reset.pc := boot_onlyWrites _ .pc (by simp)
  have hfirst : (boot (first :: second :: rest)).readMem 0x200 = first :=
    readMem_boot_image (k := 0) (by simp) (by simp)
  have hsecond : (boot (first :: second :: rest)).readMem 0x201 = second :=
    readMem_boot_image (k := 1) (by simp) (by simp)
  have haddr : State.reset.pc.toNat = 0x200 := rfl
  rw [State.fetchWord, hpc, haddr, hfirst, hsecond]
  rfl

/-- Settles O9: the loaded machine is enabled, and its first fetch is the first word of the image. -/
theorem firstInstructionIsTheImagesFirstWord : Obligations.FirstInstructionIsTheImagesFirstWord := by
  intro first second rest
  have hf : (boot (first :: second :: rest)).fault = none := boot_onlyWrites _ .fault (by simp)
  have hs : (boot (first :: second :: rest)).stopped = false := boot_onlyWrites _ .stopped (by simp)
  rw [step_enabled hf hs, fetchWord_boot]

end Sys2Proof.Machine
